-- ==== Sys2Proof/Word.lean ====
section
/-! DEFINITION. The widths of the block's quantities (spec/00_scope.md R5, R6, R7): every value is an unsigned
integer or a bit, bit 0 least significant, so every multi-bit quantity is a bit vector of the stated width. -/

namespace Sys2Proof

/-- The record `b`, 8 bits, format REC8 (30_encoding.md R39). -/
abbrev Byte := BitVec 8

/-- A one-bit field or port: `gender`, `active` (30_encoding.md R39). -/
abbrev Bit := BitVec 1

/-- The stored version, 0 to 3 (30_encoding.md R42, decision D5). -/
abbrev StoredVersion := BitVec 2

/-- The row index, 0 to 15 (30_encoding.md R39). -/
abbrev Code := BitVec 4

/-- The flat ROM address `{code, version}`, 0 to 63 (20_memory.md R25). -/
abbrev FlatAddr := BitVec 6

/-- A ROM word and the throughput output, THR_W = 18 bits unsigned (20_memory.md R24, 30_encoding.md R45). -/
abbrev Thr := BitVec 18

end Sys2Proof
end

