-- ==== Sys2Proof/Config.lean ====
section
/-! DEFINITION. The parameters of the block (spec/00_scope.md R5). Every size is fixed; the ROM's contents are the
one configuration value, constant through all evaluations (10_state.md R16, R19; decision D7). The default contents
stand in Sys2Proof/Machine/Rom.lean. The open parameter T_PD has no place here: no rule depends on it (R104). -/

namespace Sys2Proof

/-- The ROM: 16 rows indexed by `code`, 4 columns indexed by the stored version, 64 whole words
(20_memory.md R23). -/
abbrev Rom := Vector (Vector Thr 4) 16

/-- What is fixed for one block before its first evaluation (10_state.md R16, R19; 70_reset_and_hazards.md R101). -/
structure Config where
  /-- GHZ_ROM, the contents of GigahertzTable. -/
  ghzRom : Rom
  deriving DecidableEq, Repr

/-- CV_CAUSE, the numeric code of the one fault; 0 means no fault (60_exceptions.md R82, decision D9). -/
abbrev Config.cvCause : Nat := 1

end Sys2Proof
end

