-- ==== Sys2Proof/Machine/Rom.lean ====
section
/-! DEFINITION. The default and normative contents of GHZ_ROM (spec/41_gigahertz_lookup.md R67, decision D7). -/

namespace Sys2Proof.Machine

/-- The table of R67: row = `code` 0 to 15, columns = stored version 0 to 3 (v0(ver1), v1(ver2), v2(ver3),
v3(ver4)). -/
def ghzRomDefault : Rom :=
  #v[#v[  0,   0,     0,    100],
     #v[  0,   0,   100,    200],
     #v[  0, 100,   150,    250],
     #v[  0, 125,   175,    340],
     #v[  5, 125,   180,    365],
     #v[ 10, 150,   200,    365],
     #v[ 10, 150,   375,    375],
     #v[ 10, 150,   400,    400],
     #v[ 15, 150,   450,   1000],
     #v[ 15, 150,   450,   1150],
     #v[ 15, 150,   500,   1250],
     #v[ 20, 155,   550,   5000],
     #v[100, 200,  1560,   9800],
     #v[150, 250,  2000,  12100],
     #v[230, 330,  6000,  23500],
     #v[300, 500, 18000, 235550]]

/-- The block of this spec: the default contents (R67). Every ROM operation takes the configuration as an argument,
so a corrected table replaces these values without a change to any rule (D7); exec runs this one. -/
def hardware : Config := ⟨ghzRomDefault⟩

end Sys2Proof.Machine
end

