-- ==== Sys2Proof/Syntax.lean ====
section
/-! DEFINITION. The block's operations with their operands (Instr, one constructor per row of
spec/opcode_table.json), the selection of an operation (Operation: no bits select one, 30_encoding.md R46), and the
abstract syntax of the line notation of 30_encoding.md R51 (Line). -/

namespace Sys2Proof

/-- One evaluation: an operation of the closed set of 30_encoding.md R47 applied to its operand.
LOOKUP takes its index pair as unbounded unsigned integers, the interface "wider than the ports" of
60_exceptions.md R83; the pairs the 4-bit and 2-bit ports can carry are the well-formed ones (WellFormed.lean). -/
inductive Instr where
  /-- GENDER, R55. -/
  | gender (b : Byte)
  /-- VERSION, R56. -/
  | version (b : Byte)
  /-- ACTIVE, R57. -/
  | active (b : Byte)
  /-- CODE, R58. -/
  | code (b : Byte)
  /-- DECODE, R59. -/
  | decode (b : Byte)
  /-- LOOKUP, R68. -/
  | lookup (code version : Nat)
  /-- DECODEFULL, R75. -/
  | decodeFull (b : Byte)
  deriving DecidableEq, Repr

/-- The six operations on a record (30_encoding.md R47, operand format REC8). -/
inductive Rec8Op where
  | gender | version | active | code | decode | decodeFull
  deriving DecidableEq, Repr

/-- Which function the caller invokes (30_encoding.md R46): six take a REC8 operand, one takes an IDX6 operand. -/
inductive Operation where
  | rec8 (op : Rec8Op)
  | lookup
  deriving DecidableEq, Repr

/-- A name of the line notation: its characters (30_encoding.md R51). -/
abbrev Name := List Char

/-- A field of a result (30_encoding.md R51, `field`). -/
inductive Field where
  | gender | version | active | code | throughput
  deriving DecidableEq, Repr

/-- The operand of a REC8 line: a literal, or a name bound to an 8-bit value (30_encoding.md R51, `byte`). -/
inductive ByteArg where
  | lit (b : Byte)
  | name (n : Name)
  deriving DecidableEq, Repr

/-- An index of a LOOKUP line: a decimal literal, a name bound to an integer, or a field of a named result
(30_encoding.md R51, `index`). -/
inductive IndexArg where
  | lit (k : Nat)
  | name (n : Name)
  | field (n : Name) (f : Field)
  deriving DecidableEq, Repr

/-- What one line asks for: a REC8 operation, a LOOKUP (first index code, second version), an operation whose operand
is given as its bit pattern, "the encoding of a line" (30_encoding.md R51, R53), or a bare word of the opcode table,
`nbits` wide with the number `w`, which names no operation (R46, entry 1). -/
inductive Call where
  | rec8 (op : Rec8Op) (a : ByteArg)
  | lookup (code version : IndexArg)
  | encoded (op : Operation) (bytes : List Byte)
  | word (nbits w : Nat)
  deriving DecidableEq, Repr

/-- One line of a straight-line program, `name = MNEMONIC operand` (30_encoding.md R51). -/
structure Line where
  dst : Name
  call : Call
  deriving DecidableEq, Repr

end Sys2Proof
end

