-- ==== Sys2Proof/WellFormed.lean ====
section
/-! DEFINITION. Which evaluations have an operand encoding (spec/30_encoding.md R48, R49), and which lines have
well-formed names (R51). An evaluation that is not well formed can still be asked for at an interface wider than the
ports; its outcome is the fault of 60_exceptions.md R82 (Machine/Gigahertz.lean). -/

namespace Sys2Proof

/-- Every byte is a valid operand (R48); an index pair is an IDX6 operand when it fits the 4-bit and 2-bit ports
(R49). -/
def Instr.wf : Instr → Bool
  | .gender _ => true
  | .version _ => true
  | .active _ => true
  | .code _ => true
  | .decode _ => true
  | .lookup c v => decide (c ≤ 15) && decide (v ≤ 3)
  | .decodeFull _ => true

/-- A character of a name after its first: a letter, a digit or the underscore (R51). -/
def nameChar (c : Char) : Bool := c.isAlphanum || c == '_'

/-- `name ::= letter ( letter | digit | "_" )*` (R51). -/
def Name.wf : Name → Bool
  | [] => false
  | c :: cs => c.isAlpha && cs.all nameChar

/-- The names inside the operand of a REC8 line are well formed. -/
def ByteArg.wf : ByteArg → Bool
  | .lit _ => true
  | .name n => Name.wf n

/-- The names inside an index are well formed. -/
def IndexArg.wf : IndexArg → Bool
  | .lit _ => true
  | .name n => Name.wf n
  | .field n _ => Name.wf n

/-- The names inside a call are well formed. -/
def Call.wf : Call → Bool
  | .rec8 _ a => a.wf
  | .lookup c v => c.wf && v.wf
  | .encoded _ _ => true
  | .word _ _ => true

/-- A line's own name and the names in its operand are well formed (R51). -/
def Line.wf (l : Line) : Bool := Name.wf l.dst && l.call.wf

end Sys2Proof
end

