-- ==== Sys2Proof/Decode.lean ====
section
/-! DEFINITION. From an operation and the bits of its operand to an evaluation, and back (spec/30_encoding.md R39,
R44, R46, R53; opcode_table.json). No bits select an operation (R46), so decode takes the caller's selection beside
the bits. It is total on any bytes and rejects by name what is no operand: a record of another length than one byte
(00_scope.md R4, 30_encoding.md R50), an index pattern of more than 6 bits (R44, R49). -/

namespace Sys2Proof

/-- Why bits are no operand of an operation. -/
inductive DecodeError where
  /-- A REC8 operand of `n` bytes, `n` not 1 (00_scope.md R4). -/
  | recordLength (n : Nat)
  /-- An IDX6 operand of `n` bytes, `n` not 1: the flat form has 6 bits (30_encoding.md R44, entry 10). -/
  | indexLength (n : Nat)
  /-- A byte with bit 6 or bit 7 set is no 6-bit flat form `ccccvv` (30_encoding.md R44, entry 10). -/
  | notSixBits (b : Byte)
  /-- A bare word that is no operand of the opcode table's widths: neither 8 bits holding a number below 256 nor 6 bits
  holding a number below 64 (00_scope.md R4, 20_memory.md R34, entry 1). -/
  | notATableWord (nbits w : Nat)
  deriving DecidableEq, Repr

/-- The evaluation of a REC8 operation on a record. -/
def Rec8Op.instr : Rec8Op → Byte → Instr
  | .gender, b => .gender b
  | .version, b => .version b
  | .active, b => .active b
  | .code, b => .code b
  | .decode, b => .decode b
  | .decodeFull, b => .decodeFull b

/-- The row `cccc`, bits 5 to 2 of the flat form (30_encoding.md R44). -/
def flatCode (a : FlatAddr) : Code := a.extractLsb' 2 4

/-- The column `vv`, bits 1 to 0 of the flat form (30_encoding.md R44). -/
def flatVersion (a : FlatAddr) : StoredVersion := a.extractLsb' 0 2

/-- The evaluation that an operation and the bits of its operand stand for (30_encoding.md R46, R53). -/
def decode (op : Operation) (bytes : List Byte) : Except DecodeError Instr :=
  match op, bytes with
  | .rec8 o, [b] => .ok (o.instr b)
  | .rec8 _, bs => .error (.recordLength bs.length)
  | .lookup, [b] =>
    if b.toNat < 64 then
      .ok (.lookup (flatCode (b.setWidth 6)).toNat (flatVersion (b.setWidth 6)).toNat)
    else .error (.notSixBits b)
  | .lookup, bs => .error (.indexLength bs.length)

/-- The function the caller invokes for an evaluation (30_encoding.md R46, R47). -/
def Instr.operation : Instr → Operation
  | .gender _ => .rec8 .gender
  | .version _ => .rec8 .version
  | .active _ => .rec8 .active
  | .code _ => .rec8 .code
  | .decode _ => .rec8 .decode
  | .lookup _ _ => .lookup
  | .decodeFull _ => .rec8 .decodeFull

/-- The encoding of an evaluation: which function, and the bits of its operand, `gvvacccc` for a record, `ccccvv` in
the low six bits of a byte for an index pair (30_encoding.md R39, R44, R53; entry 10). A pair out of range "is not an
encoding of IDX6 at all" (R49), so it has none. -/
def encode : Instr → Option (Operation × List Byte)
  | .gender b => some (.rec8 .gender, [b])
  | .version b => some (.rec8 .version, [b])
  | .active b => some (.rec8 .active, [b])
  | .code b => some (.rec8 .code, [b])
  | .decode b => some (.rec8 .decode, [b])
  | .lookup c v => if c ≤ 15 ∧ v ≤ 3 then some (.lookup, [BitVec.ofNat 8 (c * 4 + v)]) else none
  | .decodeFull b => some (.rec8 .decodeFull, [b])

/-- The evaluation a bare word of the opcode table stands for. The table's rows all have mask 0x00 and match 0x00, so
no bits tell them apart (30_encoding.md R46, R53): a word of 8 bits is given to DECODEFULL, whose outcome holds every
field of a record, and a word of 6 bits is the flat form of LOOKUP's pair. Any other width, and a number that does not
fit its width, is rejected by name: nothing is rounded up, truncated or wrapped (00_scope.md R4, 60_exceptions.md R84).
DESIGN CHOICE (entry 1), safe. -/
def decodeWord (nbits w : Nat) : Except DecodeError Instr :=
  if nbits = 8 ∧ w < 256 then decode (.rec8 .decodeFull) [BitVec.ofNat 8 w]
  else if nbits = 6 ∧ w < 64 then decode .lookup [BitVec.ofNat 8 w]
  else .error (.notATableWord nbits w)

/-- The evaluation this decoder reads from a bare word of the opcode table (entry 1). -/
def decodeTableWord (nbits w : Nat) : Option Instr :=
  match decodeWord nbits w with
  | .ok i => some i
  | .error _ => none

end Sys2Proof
end

