-- ==== Sys2Proof/Machine/State.lean ====
section
/-! DEFINITION. Results, outcomes, the reasons a step can stop, and State. The block itself holds nothing
(spec/10_state.md R13 to R16, R21); State holds its input signals and the caller's side of an evaluation (R17;
00_scope.md R11, R12; 30_encoding.md R51). The output signals are functions of the input signals (R17, R104) and are
computed in Ops.lean, never stored. -/

namespace Sys2Proof.Machine

/-- The meaning of a `gender` bit (30_encoding.md R41). -/
inductive Gender where
  | female | male
  deriving DecidableEq, Repr

/-- The names of the four stored versions (30_encoding.md R42, R52). -/
inductive VersionName where
  | v1 | v2 | v3 | v4
  deriving DecidableEq, Repr

/-- DecodedRecord, the four-field output of DECODE (40_bitfield_decode.md R59; 90_conflicts.md C1). -/
structure DecodedRecord where
  gender : Bit
  version : StoredVersion
  active : Bit
  code : Code
  deriving DecidableEq, Repr

/-- DecodedRecordWithThroughput, the five-field output of DECODEFULL (42_decode_full.md R75). -/
structure FullRecord where
  gender : Bit
  version : StoredVersion
  active : Bit
  code : Code
  throughput : Thr
  deriving DecidableEq, Repr

/-- The value of an evaluation, by the operation that yields it (30_encoding.md R47). -/
inductive Value where
  | gender (g : Bit)
  | version (v : StoredVersion)
  | active (a : Bit)
  | code (c : Code)
  | record (r : DecodedRecord)
  | throughput (t : Thr)
  | full (r : FullRecord)
  /-- An 8-bit value: no operation yields one; the caller may bind a name to one (30_encoding.md R51, entry 9). -/
  | byte (b : Byte)
  deriving DecidableEq, Repr

/-- The block's one fault (60_exceptions.md R82, the complete list). -/
inductive Fault where
  /-- ContractViolation: LOOKUP with `code` above 15 or `version` above 3, the pair recorded as presented. It is the
  outcome of that evaluation, delivered to the caller in `State.reply` by a next state that changes nothing else
  (R88, R89): the block has no state to stop in. Safe: no value is ever given for such a pair (R84). -/
  | contractViolation (code version : Nat)
  deriving DecidableEq, Repr

/-- Why a step answers nothing: the caller's line names no evaluation. No evaluation is ever refused. -/
inductive Refusal where
  /-- An operation without a meaning in this model; raised by no arm of exec. Safe. -/
  | notModelled (mnemonic : String)
  /-- Raised by fetch: the bits given are no operand of the operation (00_scope.md R4, 30_encoding.md R49). Safe. -/
  | malformedOperand (e : DecodeError)
  /-- Raised by fetch: a line's operand names something the caller has not bound to a value of the kind the operand
  needs (30_encoding.md R51: "a name bound to an 8-bit value", "one bound to an integer"). Safe. -/
  | operandNotBound (n : Name)
  deriving DecidableEq, Repr

/-- The outcome of an evaluation: a value, or the fault and no value (00_scope.md R12, 60_exceptions.md R96). -/
inductive Reply where
  | value (v : Value)
  | fault (f : Fault)
  deriving DecidableEq, Repr

/-- The signals the caller drives, the outcome it received last, the lines it has still to present and the names it
has bound. The block keeps none of it (10_state.md R13); entries 2, 3 and 7. -/
structure State where
  /-- `byte_i[7:0]`, the input of the DECODE and DECODEFULL groups (R17). -/
  byteI : Byte
  /-- `lk_code_i[3:0]`, input of the LOOKUP group (R17). -/
  lkCodeI : Code
  /-- `lk_version_i[1:0]`, input of the LOOKUP group (R17). -/
  lkVersionI : StoredVersion
  /-- The outcome of the latest evaluation; none while nothing has been evaluated (00_scope.md R12). -/
  reply : Option Reply
  /-- The caller's lines still to be presented, the next one first (30_encoding.md R51, 60_exceptions.md R94). -/
  program : List Line
  /-- The names bound to outcomes, the newest first (30_encoding.md R51). -/
  bindings : List (Name × Reply)
  deriving DecidableEq, Repr

/-- Before any evaluation: nothing presented, nothing bound, no outcome (95_test_vectors.md section 3: the start
state of every program is "no state"). The input signals carry 0: DESIGN CHOICE, unsafe (entry 3): the block has no
reset and the caller drives them. -/
def State.reset : State where
  byteI := 0
  lkCodeI := 0
  lkVersionI := 0
  reply := none
  program := []
  bindings := []

end Sys2Proof.Machine
end

