-- ==== Sys2Proof/Machine/Ops.lean ====
section
/-! DEFINITION. The operations the meanings share: the shift-and-mask law and the four fields (spec/40_bitfield_decode.md
R54 to R60), the ROM read (20_memory.md R25, R27), the composition (42_decode_full.md R75), the signals (10_state.md
R17), the delivery of an outcome and the taking of the one fault (60_exceptions.md R82, R88). -/

namespace Sys2Proof.Machine

/-- `extract(b, lsb, w) = (b >> lsb) & (2^w - 1)`: shift first, mask second (R54). -/
def extract (b : Byte) (lsb w : Nat) : BitVec w :=
  ((b >>> lsb) &&& BitVec.ofNat 8 (2 ^ w - 1)).setWidth w

/-- `gender`, bit 7: shift 7, mask 0x1 (R40, R55; 90_conflicts.md C2). -/
def genderOf (b : Byte) : Bit := extract b 7 1

/-- `version`, bits 6 to 5: shift 5, mask 0x3; the raw stored value (R40, R56). -/
def versionOf (b : Byte) : StoredVersion := extract b 5 2

/-- `active`, bit 4: shift 4, mask 0x1 (R40, R57). -/
def activeOf (b : Byte) : Bit := extract b 4 1

/-- `code`, bits 3 to 0: shift 0, mask 0xF (R40, R58). -/
def codeOf (b : Byte) : Code := extract b 0 4

/-- The four fields of a record, each from the same byte (R59). -/
def recordOf (b : Byte) : DecodedRecord where
  gender := genderOf b
  version := versionOf b
  active := activeOf b
  code := codeOf b

/-- The reassembly law: `b = gender * 128 + version * 32 + active * 16 + code` (R39, R60, R63). -/
def DecodedRecord.toByte (r : DecodedRecord) : Byte :=
  BitVec.ofNat 8 (r.gender.toNat * 128 + r.version.toNat * 32 + r.active.toNat * 16 + r.code.toNat)

/-- 0 is female, 1 is male (30_encoding.md R41). -/
def genderName (g : Bit) : Gender := if g = 1 then .male else .female

/-- Stored 0, 1, 2, 3 is V1, V2, V3, V4 (30_encoding.md R42, R52). -/
def versionName (v : StoredVersion) : VersionName :=
  if v = 0 then .v1 else if v = 1 then .v2 else if v = 2 then .v3 else .v4

/-- The human-facing version number, 1 to 4; never an index (30_encoding.md R42). -/
def versionNumber (v : StoredVersion) : Nat := v.toNat + 1

/-- 1 is active, 0 is not active (30_encoding.md R43). -/
def isActive (a : Bit) : Bool := a == 1

/-- The flat address `{code[3:0], version[1:0]}` (20_memory.md R25). -/
def flatAddr (c : Code) (v : StoredVersion) : FlatAddr := c ++ v

/-- `MemRead(a, 1) = GHZ_ROM[a >> 2][a & 3]`, the one memory access of the block (20_memory.md R27). -/
def memRead (cfg : Config) (a : FlatAddr) : Thr :=
  cfg.ghzRom[(flatCode a).toNat][(flatVersion a).toNat]

/-- `RomRead(c, v) = MemRead(c * 4 + v, 1)` (20_memory.md R27). -/
def romRead (cfg : Config) (c : Code) (v : StoredVersion) : Thr := memRead cfg (flatAddr c v)

/-- DECODEFULL's data path: decode, then look up with the record's own code and stored version, then the assembled
record (42_decode_full.md R75). -/
def fullOf (cfg : Config) (b : Byte) : FullRecord where
  gender := (recordOf b).gender
  version := (recordOf b).version
  active := (recordOf b).active
  code := (recordOf b).code
  throughput := romRead cfg (recordOf b).code (recordOf b).version

/-- Drive `byte_i` (10_state.md R17; what the other inputs carry is left alone, entry 7). -/
def State.presentByte (b : Byte) (s : State) : State := { s with byteI := b }

/-- Drive `lk_code_i` and `lk_version_i` (10_state.md R17; entry 7). -/
def State.presentIndex (c : Code) (v : StoredVersion) (s : State) : State :=
  { s with lkCodeI := c, lkVersionI := v }

/-- The caller receives an outcome (00_scope.md R11, R12). -/
def State.deliver (r : Reply) (s : State) : State := { s with reply := some r }

/-- The caller binds a name to an outcome; a newer binding hides an older one (30_encoding.md R51, entry 9). -/
def State.bind (n : Name) (r : Reply) (s : State) : State := { s with bindings := (n, r) :: s.bindings }

/-- TAKING THE FAULT: the outcome is the fault and no value; nothing is saved, nothing else changes, and the block
can evaluate the next operand (60_exceptions.md R88, R89; entry 5). There is no return from it (R89). -/
def State.takeFault (f : Fault) (s : State) : State := s.deliver (.fault f)

/-- `gender_o` (10_state.md R17). -/
def State.genderO (s : State) : Bit := genderOf s.byteI

/-- `version_o[1:0]` (10_state.md R17). -/
def State.versionO (s : State) : StoredVersion := versionOf s.byteI

/-- `active_o` (10_state.md R17). -/
def State.activeO (s : State) : Bit := activeOf s.byteI

/-- `code_o[3:0]` (10_state.md R17). -/
def State.codeO (s : State) : Code := codeOf s.byteI

/-- `throughput_o[17:0] = GHZ_ROM[code_o][version_o]` (10_state.md R17). -/
def State.throughputO (cfg : Config) (s : State) : Thr := romRead cfg s.codeO s.versionO

/-- `lk_throughput_o[17:0] = GHZ_ROM[lk_code_i][lk_version_i]` (10_state.md R17). -/
def State.lkThroughputO (cfg : Config) (s : State) : Thr := romRead cfg s.lkCodeI s.lkVersionI

end Sys2Proof.Machine
end

