-- ==== Sys2Proof/Machine/Operands.lean ====
section
/-! DEFINITION. The operand forms of the line notation and how a line becomes an evaluation (spec/30_encoding.md
R51): literals, names bound to earlier results, and fields of earlier results. -/

namespace Sys2Proof.Machine

/-- The integer a result is, where it is one: every field and every word is an unsigned integer or a bit
(00_scope.md R7); a record is none. -/
def Value.integer : Value → Option Nat
  | .gender g => some g.toNat
  | .version v => some v.toNat
  | .active a => some a.toNat
  | .code c => some c.toNat
  | .throughput t => some t.toNat
  | .byte b => some b.toNat
  | .record _ => none
  | .full _ => none

/-- `r.f`, a field of a record result (00_scope.md R8); DECODE's record has no throughput (R59, C1). -/
def Value.field (v : Value) (f : Field) : Option Nat :=
  match v with
  | .record r =>
    match f with
    | .gender => some r.gender.toNat
    | .version => some r.version.toNat
    | .active => some r.active.toNat
    | .code => some r.code.toNat
    | .throughput => none
  | .full r =>
    match f with
    | .gender => some r.gender.toNat
    | .version => some r.version.toNat
    | .active => some r.active.toNat
    | .code => some r.code.toNat
    | .throughput => some r.throughput.toNat
  | _ => none

/-- The outcome a name is bound to, the newest binding first. -/
def lookupName (n : Name) : List (Name × Reply) → Option Reply
  | [] => none
  | (m, r) :: bs => if m = n then some r else lookupName n bs

/-- The value a name is bound to; a name bound to the fault has none (60_exceptions.md R88). -/
def valueOf (n : Name) (bs : List (Name × Reply)) : Option Value :=
  match lookupName n bs with
  | some (.value v) => some v
  | some (.fault _) => none
  | none => none

/-- The record an operand stands for: a literal, or a name bound to an 8-bit value (R51). -/
def resolveByte (bs : List (Name × Reply)) : ByteArg → Except Refusal Byte
  | .lit b => .ok b
  | .name n =>
    match valueOf n bs with
    | some (.byte b) => .ok b
    | _ => .error (.operandNotBound n)

/-- The integer an index stands for: a literal, a name bound to an integer, or a field of a result (R51). It is
passed on as it is, never narrowed (60_exceptions.md R84). -/
def resolveIndex (bs : List (Name × Reply)) : IndexArg → Except Refusal Nat
  | .lit k => .ok k
  | .name n =>
    match (valueOf n bs).bind Value.integer with
    | some k => .ok k
    | none => .error (.operandNotBound n)
  | .field n f =>
    match (valueOf n bs).bind (fun v => v.field f) with
    | some k => .ok k
    | none => .error (.operandNotBound n)

/-- A decoder's answer as fetch's: bits that are no operand refuse the step under the decoder's own reason (R4, R49;
entries 1, 10 and 11). -/
def fetched : Except DecodeError Instr → Except Refusal Instr
  | .ok i => .ok i
  | .error e => .error (.malformedOperand e)

/-- The evaluation a line asks for, its operand resolved among the caller's bindings (R51). -/
def fetch (bs : List (Name × Reply)) : Call → Except Refusal Instr
  | .rec8 op a =>
    match resolveByte bs a with
    | .ok b => fetched (decode (.rec8 op) [b])
    | .error r => .error r
  | .lookup c v =>
    match resolveIndex bs c, resolveIndex bs v with
    | .ok c', .ok v' => .ok (.lookup c' v')
    | .error r, _ => .error r
    | .ok _, .error r => .error r
  | .encoded op bytes => fetched (decode op bytes)
  | .word nbits w => fetched (decodeWord nbits w)

end Sys2Proof.Machine
end

