-- ==== Sys2Proof/Machine/Caller.lean ====
section
/-! DEFINITION. What the caller does around one evaluation (spec/00_scope.md R11, R12; 30_encoding.md R51): take the
next line, resolve its operand, have it evaluated, bind its name to the outcome. Step.lean only calls these. -/

namespace Sys2Proof.Machine

/-- The line is presented: it is no longer among those to come. -/
def State.advance (rest : List Line) (s : State) : State := { s with program := rest }

/-- Bind a line's name to the outcome of its evaluation, a value or the fault (R51, 60_exceptions.md R88). -/
def State.bindReply (n : Name) (s : State) : State :=
  match s.reply with
  | some r => s.bind n r
  | none => s

/-- What an evaluation does to a state: exec, for the block's own table, or execIn, for any (Configured.lean). -/
abbrev Evaluator := Instr → State → Host.Outcome State Fault Refusal

/-- The evaluation of one line, the lines after it being `rest`. -/
def runLine (ev : Evaluator) (l : Line) (rest : List Line) (s : State) : Host.Outcome State Fault Refusal :=
  match fetch s.bindings l.call with
  | .error r => .refused r
  | .ok i =>
    match ev i (s.advance rest) with
    | .next t => .next (t.bindReply l.dst)
    | .fault f => .fault f
    | .refused r => .refused r

/-- One step of the caller's program; with no line to present nothing happens: the signals stay as they are
(entry 4). -/
def runNext (ev : Evaluator) (s : State) : Host.Outcome State Fault Refusal :=
  match s.program with
  | [] => .next s
  | l :: rest => runLine ev l rest s

/-- The name `r`, the left side of the line that withFetchWord presents. -/
def fetchedName : Name := ['r']

/-- The line that presents a bare word of the opcode table (entry 1). -/
def tableLine (nbits w : Nat) : Line := ⟨fetchedName, .word nbits w⟩

/-- Put a line before those the caller has still to present. -/
def State.pushLine (l : Line) (s : State) : State := { s with program := l :: s.program }

end Sys2Proof.Machine
end

