-- ==== Sys2Proof/Machine/BitField.lean ====
section
/-! DEFINITION. The meanings of BitFieldDecoder's operations (spec/40_bitfield_decode.md R55 to R59). Each drives the
record on `byte_i` and delivers its result; none reads the ROM, none raises anything, none has another effect
(R26, R64, R85). -/

namespace Sys2Proof.Machine

/-- GENDER (R55). -/
def execGender (b : Byte) (s : State) : Host.Outcome State Fault Refusal :=
  .next ((s.presentByte b).deliver (.value (.gender (genderOf b))))

/-- VERSION (R56): the raw stored value. -/
def execVersion (b : Byte) (s : State) : Host.Outcome State Fault Refusal :=
  .next ((s.presentByte b).deliver (.value (.version (versionOf b))))

/-- ACTIVE (R57). -/
def execActive (b : Byte) (s : State) : Host.Outcome State Fault Refusal :=
  .next ((s.presentByte b).deliver (.value (.active (activeOf b))))

/-- CODE (R58). -/
def execCode (b : Byte) (s : State) : Host.Outcome State Fault Refusal :=
  .next ((s.presentByte b).deliver (.value (.code (codeOf b))))

/-- DECODE (R59): the record of the four fields. -/
def execDecode (b : Byte) (s : State) : Host.Outcome State Fault Refusal :=
  .next ((s.presentByte b).deliver (.value (.record (recordOf b))))

end Sys2Proof.Machine
end

