-- ==== Sys2Proof/Machine/Composed.lean ====
section
/-! DEFINITION. The meaning of the composed operation DECODEFULL (spec/42_decode_full.md R75), over any configuration
and over the block's own. -/

namespace Sys2Proof.Machine

/-- DECODEFULL over a configuration: decode, look up, assemble (R75). The index pair comes from the masked fields and
is always in range, so there is no check and no fault (R76). -/
def execDecodeFullIn (cfg : Config) (b : Byte) (s : State) : Host.Outcome State Fault Refusal :=
  .next ((s.presentByte b).deliver (.value (.full (fullOf cfg b))))

/-- DECODEFULL of the block (R75). -/
def execDecodeFull (b : Byte) (s : State) : Host.Outcome State Fault Refusal := execDecodeFullIn hardware b s

end Sys2Proof.Machine
end

