-- ==== Sys2Proof/Machine/Gigahertz.lean ====
section
/-! DEFINITION. The meaning of GigahertzTable's operation LOOKUP (spec/41_gigahertz_lookup.md R68), over any
configuration and over the block's own. -/

namespace Sys2Proof.Machine

/-- LOOKUP over a configuration (R68). The check comes first, on the indices as presented, never after a narrowing
(60_exceptions.md R84); when it fails the fault is taken and no ROM word is read (R88). Otherwise the pair fits the
ports, is driven on them, and the word read is the outcome. -/
def execLookupIn (cfg : Config) (c v : Nat) (s : State) : Host.Outcome State Fault Refusal :=
  if c > 15 ∨ v > 3 then .next (s.takeFault (.contractViolation c v))
  else
    .next ((s.presentIndex (BitVec.ofNat 4 c) (BitVec.ofNat 2 v)).deliver
      (.value (.throughput (romRead cfg (BitVec.ofNat 4 c) (BitVec.ofNat 2 v)))))

/-- LOOKUP of the block (R68). -/
def execLookup (c v : Nat) (s : State) : Host.Outcome State Fault Refusal := execLookupIn hardware c v s

end Sys2Proof.Machine
end

