-- ==== Sys2Proof/Machine/Dispatch.lean ====
section
/-! DEFINITION. One arm per operation (spec/30_encoding.md R47, the closed set of seven). -/

namespace Sys2Proof.Machine

def exec (i : Instr) (s : State) : Host.Outcome State Fault Refusal :=
  match i with
  | .gender b => Sys2Proof.Machine.execGender b s
  | .version b => Sys2Proof.Machine.execVersion b s
  | .active b => Sys2Proof.Machine.execActive b s
  | .code b => Sys2Proof.Machine.execCode b s
  | .decode b => Sys2Proof.Machine.execDecode b s
  | .lookup c v => Sys2Proof.Machine.execLookup c v s
  | .decodeFull b => Sys2Proof.Machine.execDecodeFull b s

end Sys2Proof.Machine
end

