-- ==== Sys2Proof/Machine/Step.lean ====
section
/-! DEFINITION. One step: the evaluation of the caller's next line (spec/00_scope.md R10, R12; 70_reset_and_hazards.md
R107). -/

namespace Sys2Proof.Machine

/-- One evaluation, from operand to outcome (R10), of the block with the table of 41_gigahertz_lookup.md R67; the same
step over any table is stepIn (Configured.lean). -/
def step (s : State) : Host.Outcome State Fault Refusal := runNext exec s

/-- The state in which the very next step evaluates a bare word of the opcode table: its line is put before the
caller's other lines (entries 1 and 4). -/
def State.withFetchWord (s : State) (nbits w : Nat) : State := s.pushLine (tableLine nbits w)

end Sys2Proof.Machine
end

