-- ==== Sys2Proof/Machine/Configured.lean ====
section
/-! DEFINITION. The machine with GHZ_ROM as "a parameter of the step function" (spec/10_state.md R19; 00_scope.md R5,
decision D7): evaluations, steps and runs over any table. exec, step and core are these at `hardware`, the table of
R67. -/

namespace Sys2Proof.Machine

/-- Every operation over a configuration. Only LOOKUP and DECODEFULL reach the ROM (20_memory.md R26). -/
def execIn (cfg : Config) : Evaluator
  | .gender b, s => execGender b s
  | .version b, s => execVersion b s
  | .active b, s => execActive b s
  | .code b, s => execCode b s
  | .decode b, s => execDecode b s
  | .lookup c v, s => execLookupIn cfg c v s
  | .decodeFull b, s => execDecodeFullIn cfg b s

/-- One step over a configuration: the operand and GHZ_ROM are all it reads (10_state.md R19, R21). -/
def stepIn (cfg : Config) (s : State) : Host.Outcome State Fault Refusal := runNext (execIn cfg) s

/-- The machine over a configuration, behind the host's interface. -/
def coreIn (cfg : Config) : Host.Core where
  State := State
  Fault := Fault
  Refusal := Refusal
  step := stepIn cfg
  reset := State.reset

end Sys2Proof.Machine
end

