-- ==== Sys2Proof/Machine/Flags.lean ====
section
/-! DEFINITION. The block has no flags, condition codes or predicates (spec/10_state.md R15), so nothing here is
state. What this file holds is the one number the spec gives an outcome: its cause code, for a model that encodes
outcomes as numbers (60_exceptions.md R82, decision D9). -/

namespace Sys2Proof.Machine

/-- CV_CAUSE = 1 for ContractViolation (R82). -/
def Fault.cause : Fault → Nat
  | .contractViolation _ _ => Config.cvCause

/-- The cause code of an outcome, 0 meaning "no fault" (R82). -/
def Reply.cause : Reply → Nat
  | .value _ => 0
  | .fault f => f.cause

end Sys2Proof.Machine
end

