-- ==== Sys2Proof/Machine/Text.lean ====
section
/-! DEFINITION. The text of the line notation (spec/30_encoding.md R51): from characters to a line. The notation has
no binary form; this file only reads its grammar. What the grammar leaves open (blanks, letter case of hexadecimal
digits) is entry 9. -/

namespace Sys2Proof.Machine

/-- The words and signs of a line. -/
inductive Token where
  | word (cs : List Char)
  | equals
  | comma
  | dot
  deriving DecidableEq, Repr

/-- The sign a character is, if it is one. -/
def signOf (c : Char) : Option Token :=
  if c = '=' then some .equals
  else if c = ',' then some .comma
  else if c = '.' then some .dot
  else none

/-- The word collected so far, if there is one, before the tokens that follow it. -/
def flushWord (acc : List Char) (ts : List Token) : List Token :=
  match acc with
  | [] => ts
  | c :: cs => .word (c :: cs) :: ts

/-- The tokens of a text; none where a character is no part of the notation. Blanks only separate. -/
def tokensFrom (acc : List Char) : List Char → Option (List Token)
  | [] => some (flushWord acc [])
  | c :: cs =>
    if nameChar c then tokensFrom (acc ++ [c]) cs
    else
      match signOf c with
      | some t => (tokensFrom [] cs).map (fun ts => flushWord acc (t :: ts))
      | none => if c = ' ' then (tokensFrom [] cs).map (flushWord acc) else none

/-- The decimal digits, each at the place of its value. -/
def decimalDigits : List Char := "0123456789".toList

/-- The hexadecimal digits as 00_scope.md R9 writes them, and the same with small letters (entry 9). -/
def hexDigits : List Char := "0123456789ABCDEF".toList

/-- The small-letter spelling of the hexadecimal digits (entry 9). -/
def hexDigitsSmall : List Char := "0123456789abcdef".toList

/-- The value of a digit: its place among the digits. -/
def digitIn (digits : List Char) (c : Char) : Option Nat := digits.idxOf? c

/-- The value of a hexadecimal digit, in either spelling. -/
def hexValue (c : Char) : Option Nat := digitIn hexDigits c <|> digitIn hexDigitsSmall c

/-- The number a row of decimal digits stands for, `acc` standing for those already read. -/
def decimalFrom (acc : Nat) : List Char → Option Nat
  | [] => some acc
  | c :: cs =>
    match digitIn decimalDigits c with
    | some d => decimalFrom (acc * 10 + d) cs
    | none => none

/-- A decimal literal: one digit or more; no upper bound, so an index may be out of range (95_test_vectors.md
section 2.4). -/
def decimalLiteral : List Char → Option Nat
  | [] => none
  | c :: cs => decimalFrom 0 (c :: cs)

/-- A hexadecimal literal 0x00 to 0xFF: the prefix and two digits (00_scope.md R9). -/
def hexLiteral : List Char → Option Byte
  | ['0', 'x', h, l] =>
    match hexValue h, hexValue l with
    | some a, some b => some (BitVec.ofNat 8 (a * 16 + b))
    | _, _ => none
  | _ => none

/-- The mnemonics of the REC8 operations (30_encoding.md R47). -/
def rec8Mnemonics : List (List Char × Rec8Op) :=
  [("GENDER".toList, .gender), ("VERSION".toList, .version), ("ACTIVE".toList, .active),
   ("CODE".toList, .code), ("DECODE".toList, .decode), ("DECODEFULL".toList, .decodeFull)]

/-- The mnemonic of LOOKUP (30_encoding.md R47). -/
def lookupMnemonic : List Char := "LOOKUP".toList

/-- The field names (30_encoding.md R51). -/
def fieldNames : List (List Char × Field) :=
  [("gender".toList, .gender), ("version".toList, .version), ("active".toList, .active),
   ("code".toList, .code), ("throughput".toList, .throughput)]

/-- `byte ::= hex literal | name`. -/
def byteArg (w : List Char) : Option ByteArg :=
  match hexLiteral w with
  | some b => some (.lit b)
  | none => if Name.wf w then some (.name w) else none

/-- `index ::= decimal literal | name`. -/
def indexWord (w : List Char) : Option IndexArg :=
  match decimalLiteral w with
  | some k => some (.lit k)
  | none => if Name.wf w then some (.name w) else none

/-- `index ::= name "." field`. -/
def indexField (w f : List Char) : Option IndexArg :=
  match fieldNames.lookup f with
  | some g => if Name.wf w then some (.field w g) else none
  | none => none

/-- An index, and the tokens after it. -/
def indexArg : List Token → Option (IndexArg × List Token)
  | .word w :: .dot :: .word f :: ts => (indexField w f).map (fun a => (a, ts))
  | .word w :: ts => (indexWord w).map (fun a => (a, ts))
  | _ => none

/-- The two indices of LOOKUP, the first the code, the second the version. -/
def lookupCall (ts : List Token) : Option Call :=
  match indexArg ts with
  | some (c, .comma :: ts') =>
    match indexArg ts' with
    | some (v, []) => some (.lookup c v)
    | _ => none
  | _ => none

/-- The right side of a line: a mnemonic and its operand. -/
def callOf (m : List Char) (ts : List Token) : Option Call :=
  if m = lookupMnemonic then lookupCall ts
  else
    match rec8Mnemonics.lookup m, ts with
    | some op, [.word w] => (byteArg w).map (Call.rec8 op)
    | _, _ => none

/-- `line ::= name "=" rec8op byte | name "=" "LOOKUP" index "," index` (R51). -/
def lineOf (text : List Char) : Option Line :=
  match tokensFrom [] text with
  | some (.word n :: .equals :: .word m :: ts) =>
    if Name.wf n then (callOf m ts).map (Line.mk n) else none
  | _ => none

/-- A program's lines, in order; none where one of them is no line of the notation. -/
def programOf : List (List Char) → Option (List Line)
  | [] => some []
  | t :: ts =>
    match lineOf t, programOf ts with
    | some l, some ls => some (l :: ls)
    | _, _ => none

end Sys2Proof.Machine
end

