-- ==== Sys2Proof/Safety.lean ====
section
/-! DEFINITION. The terms claims use: what an evaluation's outcome is by the spec's arithmetic laws, when a line needs
no earlier result, when an outcome is faulted, and when a state's outcomes are all sound. -/

namespace Sys2Proof

/-- The evaluation of a line that uses no earlier result: its operand is a literal or a bit pattern
(30_encoding.md R51). -/
def Call.closedInstr : Call → Option Instr
  | .rec8 op (.lit b) => some (op.instr b)
  | .rec8 _ (.name _) => none
  | .lookup (.lit c) (.lit v) => some (.lookup c v)
  | .lookup _ _ => none
  | .encoded op bytes =>
    match decode op bytes with
    | .ok i => some i
    | .error _ => none
  | .word nbits w => decodeTableWord nbits w

end Sys2Proof

namespace Sys2Proof.Machine

/-- The outcome of an evaluation by the arithmetic laws of spec/40_bitfield_decode.md R60, the table indexed by the
pair directly (41_gigahertz_lookup.md R68, 42_decode_full.md R75). No shift, no mask, no flat address and no state
appear in it: it is what the machine's outcome is compared with. -/
def specOutcome (cfg : Config) : Instr → Reply
  | .gender b => .value (.gender (BitVec.ofNat 1 (b.toNat / 128)))
  | .version b => .value (.version (BitVec.ofNat 2 (b.toNat / 32 % 4)))
  | .active b => .value (.active (BitVec.ofNat 1 (b.toNat / 16 % 2)))
  | .code b => .value (.code (BitVec.ofNat 4 (b.toNat % 16)))
  | .decode b =>
    .value (.record ⟨BitVec.ofNat 1 (b.toNat / 128), BitVec.ofNat 2 (b.toNat / 32 % 4),
      BitVec.ofNat 1 (b.toNat / 16 % 2), BitVec.ofNat 4 (b.toNat % 16)⟩)
  | .lookup c v =>
    if h : c < 16 ∧ v < 4 then .value (.throughput ((cfg.ghzRom[c]'h.1)[v]'h.2))
    else .fault (.contractViolation c v)
  | .decodeFull b =>
    .value (.full ⟨BitVec.ofNat 1 (b.toNat / 128), BitVec.ofNat 2 (b.toNat / 32 % 4),
      BitVec.ofNat 1 (b.toNat / 16 % 2), BitVec.ofNat 4 (b.toNat % 16),
      (cfg.ghzRom[b.toNat % 16]'(Nat.mod_lt _ (by decide)))[b.toNat / 32 % 4]'(Nat.mod_lt _ (by decide))⟩)

/-- The outcome is the fault (60_exceptions.md R88). -/
def Reply.faulted : Reply → Bool
  | .value _ => false
  | .fault _ => true

/-- A safe state: the latest evaluation, if there was one, yielded a value. -/
def State.safe (s : State) : Bool :=
  match s.reply with
  | some r => !r.faulted
  | none => true

/-- An outcome the block can give: a word is a word of the ROM; a five-field record's throughput is the word at its
own code and stored version (R76); the fault records a pair out of range (60_exceptions.md R82). -/
def Reply.sound (cfg : Config) : Reply → Prop
  | .value (.throughput t) => ∃ c v, t = romRead cfg c v
  | .value (.full r) => r.throughput = romRead cfg r.code r.version
  | .value _ => True
  | .fault (.contractViolation c v) => c > 15 ∨ v > 3

/-- Every outcome the caller holds, the latest one and those bound to names, is one the block can give. -/
def State.outcomesSound (s : State) : Prop :=
  (∀ r, s.reply = some r → r.sound hardware) ∧ ∀ p ∈ s.bindings, p.2.sound hardware

end Sys2Proof.Machine
end

