-- ==== Sys2Proof/Certificates/Slice0/Obligations.lean ====
section
/-! DEFINITION. The statements for the provers. Each docstring names the rules of spec/ it formalises; "entry <n>" is
notes/assumptions/<n>.md and marks what is the model's own choice. A next state written out as a whole says at once
what the evaluation completes with, what it yields, and that nothing else of State changes. -/

open Sys2Proof Sys2Proof.Machine

/-- R55, R41: GENDER completes on every byte in every state and yields bit 7 as one bit; 0 is female, 1 is male, and
`gender_o` carries it. (What else the evaluation leaves unchanged: EvaluationFrame.) -/
def Obligations.GenderYieldsBitSeven : Prop :=
  ∀ (b : Byte) (s : State), ∃ (t : State) (g : Bit),
    exec (.gender b) s = .next t ∧ t.reply = some (.value (.gender g)) ∧ t.genderO = g ∧
    g = ((b >>> 7) &&& 1#8).setWidth 1 ∧
    g.toNat = (b.getLsbD 7).toNat ∧
    (g = 1#1 ↔ 128 ≤ b.toNat) ∧
    (genderName g = .male ↔ g = 1#1) ∧ (genderName g = .female ↔ g = 0#1)

/-- R56: VERSION completes on every byte in every state and yields bits 6 to 5 as the raw stored value, 0 to 3,
standing for V1 to V4; `version_o` carries it. -/
def Obligations.VersionYieldsBitsSixToFive : Prop :=
  ∀ (b : Byte) (s : State), ∃ (t : State) (v : StoredVersion),
    exec (.version b) s = .next t ∧ t.reply = some (.value (.version v)) ∧ t.versionO = v ∧
    v = ((b >>> 5) &&& 3#8).setWidth 2 ∧
    v = b.extractLsb' 5 2 ∧
    v.toNat ∈ [0, 1, 2, 3] ∧
    (versionName v = .v1 ↔ v.toNat = 0) ∧ (versionName v = .v2 ↔ v.toNat = 1) ∧
    (versionName v = .v3 ↔ v.toNat = 2) ∧ (versionName v = .v4 ↔ v.toNat = 3)

/-- R57, R43: ACTIVE completes on every byte in every state and yields bit 4; 1 is active, 0 is not active;
`active_o` carries it. -/
def Obligations.ActiveYieldsBitFour : Prop :=
  ∀ (b : Byte) (s : State), ∃ (t : State) (a : Bit),
    exec (.active b) s = .next t ∧ t.reply = some (.value (.active a)) ∧ t.activeO = a ∧
    a = ((b >>> 4) &&& 1#8).setWidth 1 ∧
    a.toNat = (b.getLsbD 4).toNat ∧
    (isActive a = true ↔ a = 1#1) ∧ (isActive a = false ↔ a = 0#1)

/-- R58: CODE completes on every byte in every state and yields bits 3 to 0, `b mod 16`, a row index 0 to 15;
`code_o` carries it. -/
def Obligations.CodeYieldsLowNibble : Prop :=
  ∀ (b : Byte) (s : State), ∃ (t : State) (c : Code),
    exec (.code b) s = .next t ∧ t.reply = some (.value (.code c)) ∧ t.codeO = c ∧
    c = ((b >>> 0) &&& 15#8).setWidth 4 ∧
    c = b.extractLsb' 0 4 ∧
    c.toNat = b.toNat % 16 ∧ c.toNat ≤ 15

/-- R59: DECODE completes on every byte in every state; its record holds exactly what the four accessors return, and
the four outputs of the DECODE group carry it. -/
def Obligations.DecodeYieldsTheFourFields : Prop :=
  ∀ (b : Byte) (s : State), ∃ (t : State) (r : DecodedRecord),
    exec (.decode b) s = .next t ∧ t.reply = some (.value (.record r)) ∧
    r.gender = ((b >>> 7) &&& 1#8).setWidth 1 ∧ r.version = ((b >>> 5) &&& 3#8).setWidth 2 ∧
    r.active = ((b >>> 4) &&& 1#8).setWidth 1 ∧ r.code = ((b >>> 0) &&& 15#8).setWidth 4 ∧
    (∃ u, exec (.gender b) s = .next u ∧ u.reply = some (.value (.gender r.gender))) ∧
    (∃ u, exec (.version b) s = .next u ∧ u.reply = some (.value (.version r.version))) ∧
    (∃ u, exec (.active b) s = .next u ∧ u.reply = some (.value (.active r.active))) ∧
    (∃ u, exec (.code b) s = .next u ∧ u.reply = some (.value (.code r.code))) ∧
    t.genderO = r.gender ∧ t.versionO = r.version ∧ t.activeO = r.active ∧ t.codeO = r.code

/-- LOOKUP completes on every index pair in range, in every state, and yields exactly the word of the table at the
pair (41_gigahertz_lookup.md sections 2 and 3: no gap, no interpolation, no default). That an evaluation asked for with
wide indices drives the pair on the ports, so that `lk_throughput_o` carries the word, is the model's choice
(entry 6). -/
def Obligations.LookupYieldsTheTableEntry : Prop :=
  ∀ (c v : Nat) (s : State) (hc : c < 16) (hv : v < 4), ∃ t : State,
    exec (.lookup c v) s = .next t ∧
    t.reply = some (.value (.throughput hardware.ghzRom[c][v])) ∧
    t.lkCodeI.toNat = c ∧ t.lkVersionI.toNat = v ∧ t.lkThroughputO hardware = hardware.ghzRom[c][v]

/-- R75: DECODEFULL completes on every byte in every state, with the four fields DECODE gives that byte and the table
entry at the record's own code and stored version; the five outputs carry the result. -/
def Obligations.DecodeFullYieldsRecordWithThroughput : Prop :=
  ∀ (b : Byte) (s : State), ∃ (t u : State) (r : FullRecord),
    exec (.decodeFull b) s = .next t ∧ t.reply = some (.value (.full r)) ∧
    exec (.decode b) s = .next u ∧
    u.reply = some (.value (.record ⟨r.gender, r.version, r.active, r.code⟩)) ∧
    r.throughput = hardware.ghzRom[(b.extractLsb' 0 4).toNat][(b.extractLsb' 5 2).toNat] ∧
    t.genderO = r.gender ∧ t.versionO = r.version ∧ t.activeO = r.active ∧ t.codeO = r.code ∧
    t.throughputO hardware = r.throughput

/-- R67: the 64 words of GHZ_ROM, in flat order, four to a row of `code`. -/
def Obligations.RomHoldsTheStatedTable : Prop :=
  (List.finRange 64).map (fun a => (memRead hardware (BitVec.ofFin a)).toNat) =
    [0, 0, 0, 100] ++ [0, 0, 100, 200] ++ [0, 100, 150, 250] ++ [0, 125, 175, 340] ++
    [5, 125, 180, 365] ++ [10, 150, 200, 365] ++ [10, 150, 375, 375] ++ [10, 150, 400, 400] ++
    [15, 150, 450, 1000] ++ [15, 150, 450, 1150] ++ [15, 150, 500, 1250] ++ [20, 155, 550, 5000] ++
    [100, 200, 1560, 9800] ++ [150, 250, 2000, 12100] ++ [230, 330, 6000, 23500] ++
    [300, 500, 18000, 235550]

/-- R25, R27: the flat address is `code * 4 + version`, the concatenation of the two; `MemRead` and `RomRead` of every
configuration give `GHZ_ROM[a >> 2][a & 3]` and `GHZ_ROM[c][v]`. -/
def Obligations.RomReadIsTheEntryAtTheFlatAddress : Prop :=
  (∀ (c : Code) (v : StoredVersion),
    (flatAddr c v).toNat = c.toNat * 4 + v.toNat ∧ flatAddr c v = c ++ v) ∧
  (∀ (cfg : Config) (a : FlatAddr), ∃ (h : (a >>> 2).toNat < 16) (h' : (a &&& 3#6).toNat < 4),
    memRead cfg a = (cfg.ghzRom[(a >>> 2).toNat]'h)[(a &&& 3#6).toNat]'h') ∧
  ∀ (cfg : Config) (c : Code) (v : StoredVersion),
    romRead cfg c v = memRead cfg (flatAddr c v) ∧ romRead cfg c v = cfg.ghzRom[c.toNat][v.toNat]

/-- R54, R40: every field is a shift, then an AND with `2^width - 1`; for every field that lies inside the byte this
is the bit slice, and on numbers a division and a remainder. The four fields are this law with their constants. -/
def Obligations.ShiftAndMaskIsTheBitSlice : Prop :=
  (∀ (b : Byte) (lsb w : Nat), lsb + w ≤ 8 →
    extract b lsb w = ((b >>> lsb) &&& BitVec.ofNat 8 (2 ^ w - 1)).setWidth w ∧
    extract b lsb w = b.extractLsb' lsb w ∧
    (extract b lsb w).toNat = b.toNat / 2 ^ lsb % 2 ^ w) ∧
  ∀ b : Byte, genderOf b = extract b 7 1 ∧ versionOf b = extract b 5 2 ∧
    activeOf b = extract b 4 1 ∧ codeOf b = extract b 0 4

/-- R60: the arithmetic laws of the four fields and the reassembly of the byte. -/
def Obligations.FieldsObeyTheArithmeticLaws : Prop :=
  (∀ (b : Byte) (n : Nat), (b >>> n).toNat = b.toNat / 2 ^ n) ∧
  (∀ (x : Byte) (w : Nat), w ≤ 8 → (x &&& BitVec.ofNat 8 (2 ^ w - 1)).toNat = x.toNat % 2 ^ w) ∧
  (∀ (b : Byte) (lsb w : Nat), lsb + w ≤ 8 →
    ((b >>> lsb) &&& BitVec.ofNat 8 (2 ^ w - 1)).setWidth w = b.extractLsb' lsb w) ∧
  ∀ b : Byte,
    (genderOf b).toNat = b.toNat / 128 ∧
    (versionOf b).toNat = b.toNat / 32 % 4 ∧
    (activeOf b).toNat = b.toNat / 16 % 2 ∧
    (codeOf b).toNat = b.toNat % 16 ∧
    b.toNat = (genderOf b).toNat * 128 + (versionOf b).toNat * 32 + (activeOf b).toNat * 16 + (codeOf b).toNat

/-- R61: for all bytes DECODE returns a record whose fields are in their ranges. -/
def Obligations.DecodeIsTotal : Prop :=
  ∀ (b : Byte) (s : State), ∃ (t : State) (r : DecodedRecord),
    exec (.decode b) s = .next t ∧ t.reply = some (.value (.record r)) ∧
    r.gender.toNat ∈ [0, 1] ∧ r.version.toNat ∈ [0, 1, 2, 3] ∧ r.active.toNat ∈ [0, 1] ∧ r.code.toNat ≤ 15

/-- R62: flipping a field's bits of the record changes that field, by exactly those bits, and no other field. -/
def Obligations.FieldsAreBitIndependent : Prop :=
  ∀ (b m : Byte) (s : State), ∃ (t t' : State) (r r' : DecodedRecord),
    exec (.decode b) s = .next t ∧ t.reply = some (.value (.record r)) ∧
    exec (.decode (b ^^^ m)) s = .next t' ∧ t'.reply = some (.value (.record r')) ∧
    (r'.gender ≠ r.gender ↔ m.getLsbD 7 = true) ∧
    r'.version = r.version ^^^ m.extractLsb' 5 2 ∧
    r'.active = r.active ^^^ m.extractLsb' 4 1 ∧
    r'.code = r.code ^^^ m.extractLsb' 0 4

/-- R63: DECODE is a one-to-one correspondence between bytes and records; the inverse is the reassembly. -/
def Obligations.DecodeLosesNothing : Prop :=
  (∀ b : Byte, (recordOf b).toByte = b) ∧
  (∀ r : DecodedRecord, recordOf r.toByte = r) ∧
  (∀ r : DecodedRecord, r.toByte.toNat =
    r.gender.toNat * 128 + r.version.toNat * 32 + r.active.toNat * 16 + r.code.toNat) ∧
  ∀ (b b' : Byte) (s s' t t' : State), exec (.decode b) s = .next t → exec (.decode b') s' = .next t' →
    t.reply = t'.reply → b = b'

/-- R76, R66: for every byte the pair taken from it is a valid operand of LOOKUP, DECODEFULL's throughput is what
LOOKUP yields for that pair, its other fields are DECODE's, and no fault can occur. -/
def Obligations.DecodeFullIsDecodeThenLookup : Prop :=
  ∀ (b : Byte) (s : State), ∃ (t u w : State) (r : FullRecord),
    exec (.decodeFull b) s = .next t ∧ t.reply = some (.value (.full r)) ∧
    exec (.lookup r.code.toNat r.version.toNat) s = .next u ∧
    u.reply = some (.value (.throughput r.throughput)) ∧
    exec (.decode b) s = .next w ∧
    w.reply = some (.value (.record ⟨r.gender, r.version, r.active, r.code⟩))

/-- R77: flipping any bits among 7 and 4 leaves the throughput alone, for every configuration; each of the 64 pairs
comes from exactly four bytes. -/
def Obligations.ThroughputIgnoresGenderAndActive : Prop :=
  (∀ (cfg : Config) (b m : Byte) (s : State), m &&& 0x6F#8 = 0#8 → ∃ (t t' : State) (r r' : FullRecord),
    execDecodeFullIn cfg b s = .next t ∧ t.reply = some (.value (.full r)) ∧
    execDecodeFullIn cfg (b ^^^ m) s = .next t' ∧ t'.reply = some (.value (.full r')) ∧
    r.throughput = r'.throughput) ∧
  (∀ (b : Byte) (s : State), exec (.decodeFull b) s = execDecodeFullIn hardware b s) ∧
  ∀ (c : Code) (v : StoredVersion),
    ((List.finRange 256).filter fun n =>
      codeOf (BitVec.ofFin n) = c ∧ versionOf (BitVec.ofFin n) = v).length = 4

/-- R70: within each version column the words of the default table do not decrease as `code` increases. -/
def Obligations.RomColumnsAreNonDecreasing : Prop :=
  ∀ (v : StoredVersion) (c c' : Code), c ≤ c' → romRead hardware c v ≤ romRead hardware c' v

/-- R71: the words range from 0 to 235550; 0 occurs at the seven stated pairs and 235550 at (15, 3) only; the rows are
non-decreasing too; 35 values are distinct; every other value fits 15 bits. -/
def Obligations.RomWordsAreInRange : Prop :=
  (∀ (c : Code) (v : StoredVersion), (romRead hardware c v).toNat ≤ 235550) ∧
  (∀ (c : Code) (v : StoredVersion), (romRead hardware c v).toNat = 0 ↔
    (c.toNat, v.toNat) ∈ [(0, 0), (0, 1), (0, 2), (1, 0), (1, 1), (2, 0), (3, 0)]) ∧
  (∀ (c : Code) (v : StoredVersion), (romRead hardware c v).toNat = 235550 ↔ c.toNat = 15 ∧ v.toNat = 3) ∧
  (∀ (c : Code) (v v' : StoredVersion), v ≤ v' → romRead hardware c v ≤ romRead hardware c v') ∧
  ((List.finRange 64).map (fun a => (memRead hardware (BitVec.ofFin a)).toNat)).dedup.length = 35 ∧
  ∀ (c : Code) (v : StoredVersion), (romRead hardware c v).toNat ≠ 235550 → (romRead hardware c v).toNat < 2 ^ 15

/-- R42: stored 0, 1, 2, 3 is V1, V2, V3, V4; the version number is stored + 1, 1 to 4. -/
def Obligations.StoredVersionNames : Prop :=
  (versionName 0#2 = .v1 ∧ versionName 1#2 = .v2 ∧ versionName 2#2 = .v3 ∧ versionName 3#2 = .v4) ∧
  ∀ v : StoredVersion, versionNumber v = v.toNat + 1 ∧ 1 ≤ versionNumber v ∧ versionNumber v ≤ 4

/-- R82, R85, R87: every evaluation completes with one outcome, and that outcome is the fault for LOOKUP of a pair out
of range and for nothing else; it records the pair as presented, both indices together, and its cause code is 1, 0
meaning no fault. (That the fault is delivered by a next state: entry 5.) -/
def Obligations.OnlyLookupOutOfRangeIsTheFault : Prop :=
  ∀ (i : Instr) (s : State), ∃ (t : State) (r : Reply),
    exec i s = .next t ∧ t.reply = some r ∧
    (∀ f : Fault, r = .fault f ↔
      ∃ c v, i = .lookup c v ∧ (15 < c ∨ 3 < v) ∧ f = .contractViolation c v) ∧
    (r.cause = 1 ↔ r.faulted = true) ∧ (r.cause = 0 ↔ r.faulted = false)

/-- R88, R89: a faulted evaluation has the fault as its outcome and no value; nothing else changes, so every later
evaluation has the outcome it would have had without it. (That the fault is delivered by a next state: entry 5.) -/
def Obligations.FaultChangesNothingElse : Prop :=
  ∀ (c v : Nat) (s : State), 15 < c ∨ 3 < v → ∃ t : State,
    exec (.lookup c v) s = .next t ∧ t.reply = some (.fault (.contractViolation c v)) ∧
    (∀ x : Value, t.reply ≠ some (.value x)) ∧
    { t with reply := s.reply } = s ∧
    ∀ j : Instr, ∃ u u' : State, exec j t = .next u ∧ exec j s = .next u' ∧ u.reply = u'.reply

/-- R84: a line whose index literals are out of range binds its name to the fault with the pair exactly as written;
no valid index and no value takes its place. (That the fault is delivered by a next state is the model's reading,
entry 5; that the ports keep what they carried is its choice, entry 6.) -/
def Obligations.OutOfRangeIndexIsNeverClampedOrWrapped : Prop :=
  ∀ (n : Name) (c v : Nat) (rest : List Line) (s : State), 15 < c ∨ 3 < v →
    s.program = ⟨n, .lookup (.lit c) (.lit v)⟩ :: rest →
    ∃ t : State, step s = .next t ∧ t.program = rest ∧
      lookupName n t.bindings = some (.fault (.contractViolation c v)) ∧ valueOf n t.bindings = none ∧
      t.lkCodeI = s.lkCodeI ∧ t.lkVersionI = s.lkVersionI ∧ t.byteI = s.byteI

/-- Through the 4-bit and 2-bit ports every pair has a value: the fault cannot occur (sections of
60_exceptions.md and 41_gigahertz_lookup.md). -/
def Obligations.PortPairsNeverFault : Prop :=
  ∀ (c : Code) (v : StoredVersion) (s : State), ∃ t : State,
    exec (.lookup c.toNat v.toNat) s = .next t ∧
    t.lkCodeI = c ∧ t.lkVersionI = v ∧
    t.reply = some (.value (.throughput (t.lkThroughputO hardware)))

/-- The outcome of an evaluation depends on the operation and its operand alone: two states, whatever they hold, give
it the same outcome (10_state.md section 3). That LOOKUP out of range answers a next state, its outcome the fault, is
the model's reading (entry 5). -/
def Obligations.OutcomeDependsOnTheOperandAlone : Prop :=
  ∀ (i : Instr) (s s' : State), ∃ (t t' : State),
    exec i s = .next t ∧ exec i s' = .next t' ∧ t.reply = t'.reply

/-- R65, R73, R79: an evaluation done again has the same outcome, and leaves the state it left before. (That inputs keep what
was driven is the model's choice, entry 7; that LOOKUP out of range answers a next state is its reading, entry 5.) -/
def Obligations.EvaluationIsIdempotent : Prop :=
  ∀ (i : Instr) (s t : State), exec i s = .next t → exec i t = .next t

/-- Frame of all seven operations (R28, R64): the caller's program and bindings stay; a record operation drives its
byte on `byte_i` and leaves the LOOKUP inputs and output alone; LOOKUP of a pair in range drives it on its ports, of a
pair out of range leaves them, and either way leaves `byte_i` and every output of the DECODE and DECODEFULL groups.
What an input not driven carries is the model's choice (entry 7), as is the wide pair on the ports (entry 6); that a pair out of range
answers a next state is its reading (entry 5). There is
no writable memory (R29): the ROM is no part of State, so no byte or word of memory can change. -/
def Obligations.EvaluationFrame : Prop :=
  ∀ (i : Instr) (s t : State), exec i s = .next t →
    t.program = s.program ∧ t.bindings = s.bindings ∧
    (i.operation ≠ .lookup →
      encode i = some (i.operation, [t.byteI]) ∧ t.lkCodeI = s.lkCodeI ∧ t.lkVersionI = s.lkVersionI ∧
      ∀ cfg, t.lkThroughputO cfg = s.lkThroughputO cfg) ∧
    (i.operation = .lookup →
      (i.wf = true → i = .lookup t.lkCodeI.toNat t.lkVersionI.toNat) ∧
      (i.wf = false → t.lkCodeI = s.lkCodeI ∧ t.lkVersionI = s.lkVersionI) ∧
      t.byteI = s.byteI ∧ t.genderO = s.genderO ∧ t.versionO = s.versionO ∧
      t.activeO = s.activeO ∧ t.codeO = s.codeO ∧ ∀ cfg, t.throughputO cfg = s.throughputO cfg)

/-- R17: in every state each output signal is the stated function of the inputs of its own group. -/
def Obligations.OutputsAreFunctionsOfInputs : Prop :=
  ∀ (cfg : Config) (s : State),
    s.genderO = s.byteI.extractLsb' 7 1 ∧ s.versionO = s.byteI.extractLsb' 5 2 ∧
    s.activeO = s.byteI.extractLsb' 4 1 ∧ s.codeO = s.byteI.extractLsb' 0 4 ∧
    s.throughputO cfg = cfg.ghzRom[s.codeO.toNat][s.versionO.toNat] ∧
    s.lkThroughputO cfg = cfg.ghzRom[s.lkCodeI.toNat][s.lkVersionI.toNat]

/-- At reset nothing has been evaluated, nothing is bound and nothing is to come; the input signals carry 0, the
model's choice (entry 3), and the outputs are the functions of those inputs. -/
def Obligations.ResetHoldsNothing : Prop :=
  State.reset.reply = none ∧ State.reset.program = [] ∧ State.reset.bindings = [] ∧
  State.reset.byteI = 0#8 ∧ State.reset.lkCodeI = 0#4 ∧ State.reset.lkVersionI = 0#2 ∧
  ∀ cfg : Config, State.reset.throughputO cfg = cfg.ghzRom[0][0] ∧ State.reset.lkThroughputO cfg = cfg.ghzRom[0][0]

/-- With no line to present a step changes nothing (the model's choice, entry 4). -/
def Obligations.StepWithNothingPresentedIsIdle : Prop :=
  ∀ s : State, s.program = [] → step s = .next s

/-- A step evaluates the caller's next line: when the line's operand resolves to the evaluation i, the step is exec of
i with that line taken off the program, and then the line's name is bound to the outcome. (When i is LOOKUP out of range, that exec and the step answer a next
state with the name bound to the fault is the model's reading: entry 5.) -/
def Obligations.StepEvaluatesTheNextLine : Prop :=
  ∀ (s : State) (l : Line) (rest : List Line) (i : Instr),
    s.program = l :: rest → fetch s.bindings l.call = .ok i →
    ∃ (t : State) (r : Reply), exec i { s with program := rest } = .next t ∧ t.reply = some r ∧
      step s = .next { t with bindings := (l.dst, r) :: t.bindings }

/-- When the bits given to an operation decode to i, the line that presents them is fetched as i; when they decode to
nothing the step is refused under that name (that it is refused, and what the bytes of IDX6 are, is the model's:
entries 10 and 11). -/
def Obligations.PresentedBitsRunAsDecoded : Prop :=
  (∀ (bs : List (Name × Reply)) (op : Operation) (bytes : List Byte) (i : Instr),
    decode op bytes = .ok i → fetch bs (.encoded op bytes) = .ok i) ∧
  ∀ (s : State) (n : Name) (op : Operation) (bytes : List Byte) (rest : List Line) (e : DecodeError),
    s.program = ⟨n, .encoded op bytes⟩ :: rest → decode op bytes = .error e →
    step s = .refused (.malformedOperand e)

/-- When a bare word of the opcode table decodes to i, the step after withFetchWord is exec of i, the name `r` bound
to its outcome (entry 1: which operation a bare word is given to). -/
def Obligations.FetchedWordRunsAsDecoded : Prop :=
  ∀ (s : State) (nbits w : Nat) (i : Instr), decodeTableWord nbits w = some i →
    ∃ (t : State) (r : Reply), exec i s = .next t ∧ t.reply = some r ∧
      step (s.withFetchWord nbits w) = .next { t with bindings := (fetchedName, r) :: t.bindings }

/-- R48, R49: every byte is a valid operand of every record operation, and every one of the 64 pairs of LOOKUP. That
the six bits `ccccvv` of a pair stand in the low bits of one byte is the model's choice (entry 10). -/
def Obligations.EveryOperandEncodingIsValid : Prop :=
  (∀ (op : Rec8Op) (b : Byte), decode (.rec8 op) [b] = .ok (op.instr b) ∧
    encode (op.instr b) = some (.rec8 op, [b])) ∧
  ∀ (c : Code) (v : StoredVersion),
    decode .lookup [(c ++ v).setWidth 8] = .ok (.lookup c.toNat v.toNat)

/-- R4, R50: a record of any length but one byte is rejected by name, for every record operation. -/
def Obligations.OnlyOneByteIsARecord : Prop :=
  ∀ (op : Rec8Op) (bytes : List Byte),
    (∃ i, decode (.rec8 op) bytes = .ok i) ↔ bytes.length = 1

/-- Decode and encode agree: every well-formed evaluation has an encoding and is read back from it with its operand
whole, an index pair out of range has none, and whatever decodes is well formed and encodes to the same operation and
bits (the place of IDX6 in a byte: entry 10). -/
def Obligations.DecodeAndEncodeAgree : Prop :=
  (∀ i : Instr, i.wf = true → ∃ (op : Operation) (bytes : List Byte),
    encode i = some (op, bytes) ∧ decode op bytes = .ok i) ∧
  (∀ i : Instr, i.wf = false → encode i = none) ∧
  ∀ (op : Operation) (bytes : List Byte) (i : Instr),
    decode op bytes = .ok i → i.wf = true ∧ encode i = some (op, bytes)

/-- Words written out from the spec's encodings decode to what they stand for: the scenarios 0xFF, 0x92, 0x18 and
`ccccvv` = 011101, the pair (7, 1). That the six bits stand in the low bits of a byte is the model's choice
(entry 10). -/
def Obligations.WrittenOutWordsDecode : Prop :=
  decode (.rec8 .decodeFull) [0b11111111#8] = .ok (.decodeFull 0xFF#8) ∧
  decode (.rec8 .decode) [0b10010010#8] = .ok (.decode 0x92#8) ∧
  decode (.rec8 .code) [0b00011000#8] = .ok (.code 0x18#8) ∧
  decode .lookup [0b00011101#8] = .ok (.lookup 7 1)

/-- Every step keeps the outcomes sound: each throughput the caller holds is a word of the ROM, each five-field record
holds the word at its own code and version, each fault records a pair out of range. -/
def Obligations.StepKeepsOutcomesSound : Prop :=
  ∀ s t : State, s.outcomesSound → step s = .next t → t.outcomesSound

/-- The invariant of StepKeepsOutcomesSound holds at reset. -/
def Obligations.ResetOutcomesSound : Prop := State.reset.outcomesSound

/-- The machine refines the arithmetic reading of the rules: every evaluation, in every state, for every
configuration of the two operations that read the ROM, ends in a next state whose outcome is the one the laws of R60
and the table indexed by the pair give. (That LOOKUP out of range ends in a next state, its outcome the fault, is the
model's reading: entry 5.) -/
def Obligations.MachineRefinesTheArithmeticOutcome : Prop :=
  (∀ (i : Instr) (s : State), ∃ t : State, exec i s = .next t ∧ t.reply = some (specOutcome hardware i)) ∧
  (∀ (cfg : Config) (c v : Nat) (s : State), ∃ t : State,
    execLookupIn cfg c v s = .next t ∧ t.reply = some (specOutcome cfg (.lookup c v))) ∧
  ∀ (cfg : Config) (b : Byte) (s : State), ∃ t : State,
    execDecodeFullIn cfg b s = .next t ∧ t.reply = some (specOutcome cfg (.decodeFull b))

/-- R12, R94, R107: a program whose lines need no earlier result runs in one step a line, is never refused and never
stops early, and binds each line's name to the outcome of its own evaluation, in order. (A LOOKUP line out of range is
among them; that the run goes on past its fault is the model's reading, entry 5, where decision D12 is named.) -/
def Obligations.ProgramRunIsTheSequenceOfOutcomes : Prop :=
  ∀ (p : List Line) (is : List Instr) (s : State),
    p.map (fun l => l.call.closedInstr) = is.map some →
    ∃ t : State, Host.Core.run Sys2Proof.core p.length { s with program := p } = .next t ∧
      t.program = [] ∧
      t.bindings = ((p.map Line.dst).zip (is.map (specOutcome hardware))).reverse ++ s.bindings

/-- R94: the order of independent evaluations does not matter: a program whose lines need no earlier result and bind
different names gives every name the same outcome in any order of its lines. (That both runs go on past a LOOKUP line
out of range is the model's reading: entry 5, where decision D12 is named.) -/
def Obligations.EvaluationOrderDoesNotMatter : Prop :=
  ∀ (p q : List Line) (s : State), p.Perm q → (p.map Line.dst).Nodup →
    (∀ l ∈ p, (l.call.closedInstr).isSome = true) →
    ∃ t u : State,
      Host.Core.run Sys2Proof.core p.length { s with program := p } = .next t ∧
      Host.Core.run Sys2Proof.core q.length { s with program := q } = .next u ∧
      ∀ n : Name, lookupName n t.bindings = lookupName n u.bindings

/-- Decoding a record and then looking up with its own fields, as two lines of a program, binds what DECODEFULL yields
for that byte (the composition of R76 through the notation of R51). -/
def Obligations.DecodeThenLookupProgram : Prop :=
  ∀ (s : State) (b : Byte) (r t : Name) (rest : List Line), r ≠ t →
    s.program = ⟨r, .rec8 .decode (.lit b)⟩ :: ⟨t, .lookup (.field r .code) (.field r .version)⟩ :: rest →
    ∃ u : State, Host.Core.run Sys2Proof.core 2 s = .next u ∧ u.program = rest ∧
      lookupName r u.bindings = some (.value (.record (recordOf b))) ∧
      lookupName t u.bindings = some (.value (.throughput (fullOf hardware b).throughput))

/-- No step stops in a fault, and a step is refused only when the next line's operand names no evaluation: no
evaluation is ever refused, stuck or suspended. (That a fault ends in a next state is the model's reading, entry 5;
the refusals are entries 1, 9, 10 and 11.) -/
def Obligations.StepStopsOnlyAtAnUnresolvedLine : Prop :=
  ∀ s : State,
    (∃ t, step s = .next t) ∨
    ∃ (l : Line) (rest : List Line) (r : Refusal),
      s.program = l :: rest ∧ fetch s.bindings l.call = .error r ∧ step s = .refused r

/-- How the operands of R51 resolve. A record operand is a literal or a name bound to an 8-bit value; an index, the
first and the second alike, is a literal, a name bound to an integer (the caller's bits, fields and words are integers,
a record is none: entry 9) or a field that the result bound to a name has (DECODE's record has no throughput). Each
resolves to exactly that value, and anything else is refused under the operand's name (that the step is refused is the
model's choice, entry 9); of two indices that do not resolve the first gives the refusal. -/
def Obligations.OperandKindsAreChecked : Prop :=
  (∀ (bs : List (Name × Reply)) (op : Rec8Op) (a : ByteArg),
    fetch bs (.rec8 op a) =
      match a with
      | .lit b => .ok (op.instr b)
      | .name n =>
        match lookupName n bs with
        | some (.value (.byte b)) => .ok (op.instr b)
        | _ => .error (.operandNotBound n)) ∧
  (∀ (bs : List (Name × Reply)) (k : Nat), resolveIndex bs (.lit k) = .ok k) ∧
  (∀ (bs : List (Name × Reply)) (n : Name),
    resolveIndex bs (.name n) =
      match lookupName n bs with
      | some (.value (.gender g)) => .ok g.toNat
      | some (.value (.version v)) => .ok v.toNat
      | some (.value (.active a)) => .ok a.toNat
      | some (.value (.code c)) => .ok c.toNat
      | some (.value (.throughput t)) => .ok t.toNat
      | some (.value (.byte b)) => .ok b.toNat
      | _ => .error (.operandNotBound n)) ∧
  (∀ (bs : List (Name × Reply)) (n : Name) (f : Field),
    resolveIndex bs (.field n f) =
      match lookupName n bs, f with
      | some (.value (.record r)), .gender => .ok r.gender.toNat
      | some (.value (.record r)), .version => .ok r.version.toNat
      | some (.value (.record r)), .active => .ok r.active.toNat
      | some (.value (.record r)), .code => .ok r.code.toNat
      | some (.value (.full r)), .gender => .ok r.gender.toNat
      | some (.value (.full r)), .version => .ok r.version.toNat
      | some (.value (.full r)), .active => .ok r.active.toNat
      | some (.value (.full r)), .code => .ok r.code.toNat
      | some (.value (.full r)), .throughput => .ok r.throughput.toNat
      | _, _ => .error (.operandNotBound n)) ∧
  (∀ (bs : List (Name × Reply)) (a a' : IndexArg) (c v : Nat),
    resolveIndex bs a = .ok c → resolveIndex bs a' = .ok v → fetch bs (.lookup a a') = .ok (.lookup c v)) ∧
  (∀ (bs : List (Name × Reply)) (a a' : IndexArg) (e : Refusal),
    resolveIndex bs a = .error e → fetch bs (.lookup a a') = .error e) ∧
  ∀ (bs : List (Name × Reply)) (a a' : IndexArg) (c : Nat) (e : Refusal),
    resolveIndex bs a = .ok c → resolveIndex bs a' = .error e → fetch bs (.lookup a a') = .error e

/-- A bare word of a width the opcode table does not give, or whose number does not fit its width, is no instruction:
the step that presents it is refused by name and nothing is rounded, truncated or wrapped. A word that fits decodes
under its own number (which operation it is given to, and that it is refused: entry 1). -/
def Obligations.OnlyFittingWordsAreRead : Prop :=
  (∀ (nbits w : Nat), (∃ i, decodeTableWord nbits w = some i) ↔ (nbits = 8 ∧ w < 256) ∨ (nbits = 6 ∧ w < 64)) ∧
  (∀ w : Nat, w < 256 → decodeTableWord 8 w = some (.decodeFull (BitVec.ofNat 8 w))) ∧
  (∀ w : Nat, w < 64 → decodeTableWord 6 w = some (.lookup (w / 4) (w % 4))) ∧
  ∀ (s : State) (nbits w : Nat), decodeTableWord nbits w = none →
    step (s.withFetchWord nbits w) = .refused (.malformedOperand (.notATableWord nbits w))

/-- The machine over a configuration is, at the block's own table, the machine: evaluations, steps and runs. -/
def Obligations.ConfiguredMachineAtHardwareIsTheMachine : Prop :=
  (∀ (i : Instr) (s : State), execIn hardware i s = exec i s) ∧
  (∀ s : State, stepIn hardware s = step s) ∧
  ∀ (k : Nat) (s : State),
    Host.Core.run (coreIn hardware) k s = Host.Core.run Sys2Proof.core k s

/-- A step over any table evaluates the next line over that table and binds its outcome, which is the one the
arithmetic laws and that table give (GHZ_ROM is a parameter of the step function: 10_state.md section 3). That a LOOKUP
line out of range ends in a next state is the model's reading (entry 5). -/
def Obligations.StepOverEveryTable : Prop :=
  ∀ (cfg : Config) (s : State) (l : Line) (rest : List Line) (i : Instr),
    s.program = l :: rest → fetch s.bindings l.call = .ok i →
    ∃ t : State, execIn cfg i { s with program := rest } = .next t ∧
      t.reply = some (specOutcome cfg i) ∧
      stepIn cfg s = .next { t with bindings := (l.dst, specOutcome cfg i) :: s.bindings }

/-- R26: two operations reach the ROM. The four accessors and DECODE give the same over any two tables; for LOOKUP of
every pair in range and DECODEFULL of every byte there are two tables over which the outcomes differ. -/
def Obligations.OnlyLookupAndDecodeFullReachTheRom : Prop :=
  (∀ (cfg cfg' : Config) (b : Byte) (s : State),
    execIn cfg (.gender b) s = execIn cfg' (.gender b) s ∧ execIn cfg (.version b) s = execIn cfg' (.version b) s ∧
    execIn cfg (.active b) s = execIn cfg' (.active b) s ∧ execIn cfg (.code b) s = execIn cfg' (.code b) s ∧
    execIn cfg (.decode b) s = execIn cfg' (.decode b) s) ∧
  (∀ (c v : Nat) (s : State), c ≤ 15 → v ≤ 3 → ∃ (cfg cfg' : Config) (t t' : State),
    execIn cfg (.lookup c v) s = .next t ∧ execIn cfg' (.lookup c v) s = .next t' ∧ t.reply ≠ t'.reply) ∧
  ∀ (b : Byte) (s : State), ∃ (cfg cfg' : Config) (t t' : State),
    execIn cfg (.decodeFull b) s = .next t ∧ execIn cfg' (.decodeFull b) s = .next t' ∧ t.reply ≠ t'.reply

/-- The two lines of R51's example, read from their text. -/
def Obligations.ExampleLinesAreRead : Prop :=
  lineOf "r = DECODE 0x92".toList = some ⟨"r".toList, .rec8 .decode (.lit 0x92#8)⟩ ∧
  lineOf "t = LOOKUP r.code, r.version".toList =
    some ⟨"t".toList, .lookup (.field "r".toList .code) (.field "r".toList .version)⟩

/-- Every line read from a text has well-formed names, whatever the text (R51's grammar of names). -/
def Obligations.ReadLinesAreWellFormed : Prop :=
  ∀ (text : List Char) (l : Line), lineOf text = some l → l.wf = true
end

