-- ==== Sys2Proof/Laws/State.lean ====
section
/-! SUPPORT. One lemma per field of State per update, so that no later proof unfolds an update. -/

namespace Sys2Proof.Machine

variable (s : State)

@[simp] theorem State.presentByte_byteI (b : Byte) : (s.presentByte b).byteI = b := rfl
@[simp] theorem State.presentByte_lkCodeI (b : Byte) : (s.presentByte b).lkCodeI = s.lkCodeI := rfl
@[simp] theorem State.presentByte_lkVersionI (b : Byte) : (s.presentByte b).lkVersionI = s.lkVersionI := rfl
@[simp] theorem State.presentByte_reply (b : Byte) : (s.presentByte b).reply = s.reply := rfl
@[simp] theorem State.presentByte_program (b : Byte) : (s.presentByte b).program = s.program := rfl
@[simp] theorem State.presentByte_bindings (b : Byte) : (s.presentByte b).bindings = s.bindings := rfl

@[simp] theorem State.presentIndex_byteI (c : Code) (v : StoredVersion) : (s.presentIndex c v).byteI = s.byteI := rfl
@[simp] theorem State.presentIndex_lkCodeI (c : Code) (v : StoredVersion) : (s.presentIndex c v).lkCodeI = c := rfl
@[simp] theorem State.presentIndex_lkVersionI (c : Code) (v : StoredVersion) : (s.presentIndex c v).lkVersionI = v := rfl
@[simp] theorem State.presentIndex_reply (c : Code) (v : StoredVersion) : (s.presentIndex c v).reply = s.reply := rfl
@[simp] theorem State.presentIndex_program (c : Code) (v : StoredVersion) : (s.presentIndex c v).program = s.program := rfl
@[simp] theorem State.presentIndex_bindings (c : Code) (v : StoredVersion) : (s.presentIndex c v).bindings = s.bindings := rfl

@[simp] theorem State.deliver_byteI (r : Reply) : (s.deliver r).byteI = s.byteI := rfl
@[simp] theorem State.deliver_lkCodeI (r : Reply) : (s.deliver r).lkCodeI = s.lkCodeI := rfl
@[simp] theorem State.deliver_lkVersionI (r : Reply) : (s.deliver r).lkVersionI = s.lkVersionI := rfl
@[simp] theorem State.deliver_reply (r : Reply) : (s.deliver r).reply = some r := rfl
@[simp] theorem State.deliver_program (r : Reply) : (s.deliver r).program = s.program := rfl
@[simp] theorem State.deliver_bindings (r : Reply) : (s.deliver r).bindings = s.bindings := rfl

@[simp] theorem State.takeFault_byteI (f : Fault) : (s.takeFault f).byteI = s.byteI := rfl
@[simp] theorem State.takeFault_lkCodeI (f : Fault) : (s.takeFault f).lkCodeI = s.lkCodeI := rfl
@[simp] theorem State.takeFault_lkVersionI (f : Fault) : (s.takeFault f).lkVersionI = s.lkVersionI := rfl
@[simp] theorem State.takeFault_reply (f : Fault) : (s.takeFault f).reply = some (.fault f) := rfl
@[simp] theorem State.takeFault_program (f : Fault) : (s.takeFault f).program = s.program := rfl
@[simp] theorem State.takeFault_bindings (f : Fault) : (s.takeFault f).bindings = s.bindings := rfl

@[simp] theorem State.bind_byteI (n : Name) (r : Reply) : (s.bind n r).byteI = s.byteI := rfl
@[simp] theorem State.bind_lkCodeI (n : Name) (r : Reply) : (s.bind n r).lkCodeI = s.lkCodeI := rfl
@[simp] theorem State.bind_lkVersionI (n : Name) (r : Reply) : (s.bind n r).lkVersionI = s.lkVersionI := rfl
@[simp] theorem State.bind_reply (n : Name) (r : Reply) : (s.bind n r).reply = s.reply := rfl
@[simp] theorem State.bind_program (n : Name) (r : Reply) : (s.bind n r).program = s.program := rfl
@[simp] theorem State.bind_bindings (n : Name) (r : Reply) : (s.bind n r).bindings = (n, r) :: s.bindings := rfl

@[simp] theorem State.advance_byteI (rest : List Line) : (s.advance rest).byteI = s.byteI := rfl
@[simp] theorem State.advance_lkCodeI (rest : List Line) : (s.advance rest).lkCodeI = s.lkCodeI := rfl
@[simp] theorem State.advance_lkVersionI (rest : List Line) : (s.advance rest).lkVersionI = s.lkVersionI := rfl
@[simp] theorem State.advance_reply (rest : List Line) : (s.advance rest).reply = s.reply := rfl
@[simp] theorem State.advance_program (rest : List Line) : (s.advance rest).program = rest := rfl
@[simp] theorem State.advance_bindings (rest : List Line) : (s.advance rest).bindings = s.bindings := rfl

@[simp] theorem State.pushLine_byteI (l : Line) : (s.pushLine l).byteI = s.byteI := rfl
@[simp] theorem State.pushLine_lkCodeI (l : Line) : (s.pushLine l).lkCodeI = s.lkCodeI := rfl
@[simp] theorem State.pushLine_lkVersionI (l : Line) : (s.pushLine l).lkVersionI = s.lkVersionI := rfl
@[simp] theorem State.pushLine_reply (l : Line) : (s.pushLine l).reply = s.reply := rfl
@[simp] theorem State.pushLine_program (l : Line) : (s.pushLine l).program = l :: s.program := rfl
@[simp] theorem State.pushLine_bindings (l : Line) : (s.pushLine l).bindings = s.bindings := rfl

/-- Binding an outcome that was delivered. -/
theorem State.bindReply_of_reply {s : State} {r : Reply} (n : Name) (h : s.reply = some r) :
    s.bindReply n = s.bind n r := by
  simp [State.bindReply, h]

/-- With no outcome there is nothing to bind. -/
theorem State.bindReply_of_none {s : State} (n : Name) (h : s.reply = none) : s.bindReply n = s := by
  simp [State.bindReply, h]

end Sys2Proof.Machine
end

