-- ==== Sys2Proof/Laws/Ops.lean ====
section
/-! SUPPORT. What each shared operation and each meaning can do, said once: the provers cite these instead of
unfolding. -/

namespace Sys2Proof.Machine

@[simp] theorem flatCode_flatAddr : ∀ (c : Code) (v : StoredVersion), flatCode (flatAddr c v) = c := by decide

@[simp] theorem flatVersion_flatAddr : ∀ (c : Code) (v : StoredVersion), flatVersion (flatAddr c v) = v := by decide

theorem exec_gender (b : Byte) (s : State) :
    exec (.gender b) s = .next ((s.presentByte b).deliver (.value (.gender (genderOf b)))) := rfl

theorem exec_version (b : Byte) (s : State) :
    exec (.version b) s = .next ((s.presentByte b).deliver (.value (.version (versionOf b)))) := rfl

theorem exec_active (b : Byte) (s : State) :
    exec (.active b) s = .next ((s.presentByte b).deliver (.value (.active (activeOf b)))) := rfl

theorem exec_code (b : Byte) (s : State) :
    exec (.code b) s = .next ((s.presentByte b).deliver (.value (.code (codeOf b)))) := rfl

theorem exec_decode (b : Byte) (s : State) :
    exec (.decode b) s = .next ((s.presentByte b).deliver (.value (.record (recordOf b)))) := rfl

theorem exec_decodeFull (b : Byte) (s : State) :
    exec (.decodeFull b) s = .next ((s.presentByte b).deliver (.value (.full (fullOf hardware b)))) := rfl

/-- LOOKUP of a pair the ports can carry. -/
theorem execLookupIn_inRange (cfg : Config) (s : State) {c v : Nat} (hc : c ≤ 15) (hv : v ≤ 3) :
    execLookupIn cfg c v s =
      .next ((s.presentIndex (BitVec.ofNat 4 c) (BitVec.ofNat 2 v)).deliver
        (.value (.throughput (romRead cfg (BitVec.ofNat 4 c) (BitVec.ofNat 2 v))))) :=
  if_neg (by omega)

/-- LOOKUP of a pair out of range. -/
theorem execLookupIn_outOfRange (cfg : Config) (s : State) {c v : Nat} (h : 15 < c ∨ 3 < v) :
    execLookupIn cfg c v s = .next (s.takeFault (.contractViolation c v)) :=
  if_pos h

theorem exec_lookup (c v : Nat) (s : State) : exec (.lookup c v) s = execLookupIn hardware c v s := rfl

/-- Whatever the evaluation, exec goes on and delivers an outcome. -/
theorem exec_delivers (i : Instr) (s : State) :
    ∃ (t : State) (r : Reply), exec i s = .next t ∧ t.reply = some r := by
  cases i with
  | lookup c v =>
    rw [exec_lookup]
    by_cases h : 15 < c ∨ 3 < v
    · exact ⟨_, _, execLookupIn_outOfRange hardware s h, rfl⟩
    · exact ⟨_, _, execLookupIn_inRange hardware s (by omega) (by omega), rfl⟩
  | _ => exact ⟨_, _, rfl, rfl⟩

/-- exec never stops the machine. -/
theorem exec_only_next {i : Instr} {s : State} {o : Host.Outcome State Fault Refusal} (h : exec i s = o) :
    ∃ t, o = .next t := by
  obtain ⟨t, _, ht, _⟩ := exec_delivers i s
  exact ⟨t, h ▸ ht⟩

theorem execIn_lookup (cfg : Config) (c v : Nat) (s : State) :
    execIn cfg (.lookup c v) s = execLookupIn cfg c v s := rfl

theorem execIn_decodeFull (cfg : Config) (b : Byte) (s : State) :
    execIn cfg (.decodeFull b) s = .next ((s.presentByte b).deliver (.value (.full (fullOf cfg b)))) := rfl

/-- Over any configuration an evaluation goes on and delivers an outcome. -/
theorem execIn_delivers (cfg : Config) (i : Instr) (s : State) :
    ∃ (t : State) (r : Reply), execIn cfg i s = .next t ∧ t.reply = some r := by
  cases i with
  | lookup c v =>
    rw [execIn_lookup]
    by_cases h : 15 < c ∨ 3 < v
    · exact ⟨_, _, execLookupIn_outOfRange cfg s h, rfl⟩
    · exact ⟨_, _, execLookupIn_inRange cfg s (by omega) (by omega), rfl⟩
  | _ => exact ⟨_, _, rfl, rfl⟩

section Runs

variable {ev : Evaluator} {l : Line} {rest : List Line} {s : State}

/-- A line whose operand names no evaluation refuses the step under fetch's own reason. -/
theorem runLine_error {r : Refusal} (h : fetch s.bindings l.call = .error r) :
    runLine ev l rest s = .refused r := by
  simp [runLine, h]

/-- A line whose operand resolves is evaluated with the line taken off, and its name bound. -/
theorem runLine_ok {t : State} {r : Reply} {i : Instr} (h : fetch s.bindings l.call = .ok i)
    (he : ev i (s.advance rest) = .next t) (hr : t.reply = some r) :
    runLine ev l rest s = .next (t.bind l.dst r) := by
  simp [runLine, h, he, State.bindReply_of_reply _ hr]

theorem runNext_of_program (h : s.program = l :: rest) : runNext ev s = runLine ev l rest s := by
  simp [runNext, h]

/-- Everything a step can do, whatever evaluates: nothing, with no line to present; a refusal, at a line that names no
evaluation; or the evaluation of the next line and the binding of its name. -/
theorem runNext_cases (s : State)
    (hev : ∀ i u, ∃ (t : State) (r : Reply), ev i u = .next t ∧ t.reply = some r) :
    (s.program = [] ∧ runNext ev s = .next s) ∨
    (∃ l rest r, s.program = l :: rest ∧ fetch s.bindings l.call = .error r ∧ runNext ev s = .refused r) ∨
    ∃ l rest i t r, s.program = l :: rest ∧ fetch s.bindings l.call = .ok i ∧
      ev i (s.advance rest) = .next t ∧ t.reply = some r ∧ runNext ev s = .next (t.bind l.dst r) := by
  cases hp : s.program with
  | nil => exact .inl ⟨rfl, by simp [runNext, hp]⟩
  | cons l rest =>
    refine .inr ?_
    rw [runNext_of_program hp]
    cases hf : fetch s.bindings l.call with
    | error r => exact .inl ⟨l, rest, r, rfl, hf, runLine_error hf⟩
    | ok i =>
      obtain ⟨t, r, ht, hr⟩ := hev i (s.advance rest)
      exact .inr ⟨l, rest, i, t, r, rfl, hf, ht, hr, runLine_ok hf ht hr⟩

theorem step_of_program (h : s.program = l :: rest) : step s = runLine exec l rest s := runNext_of_program h

theorem stepIn_of_program (cfg : Config) (h : s.program = l :: rest) :
    stepIn cfg s = runLine (execIn cfg) l rest s := runNext_of_program h

end Runs

/-- Everything a step of the block can do. -/
theorem step_cases (s : State) :
    (s.program = [] ∧ step s = .next s) ∨
    (∃ l rest r, s.program = l :: rest ∧ fetch s.bindings l.call = .error r ∧ step s = .refused r) ∨
    ∃ l rest i t r, s.program = l :: rest ∧ fetch s.bindings l.call = .ok i ∧
      exec i (s.advance rest) = .next t ∧ t.reply = some r ∧ step s = .next (t.bind l.dst r) :=
  runNext_cases s exec_delivers

/-- Everything a step over a configuration can do. -/
theorem stepIn_cases (cfg : Config) (s : State) :
    (s.program = [] ∧ stepIn cfg s = .next s) ∨
    (∃ l rest r, s.program = l :: rest ∧ fetch s.bindings l.call = .error r ∧ stepIn cfg s = .refused r) ∨
    ∃ l rest i t r, s.program = l :: rest ∧ fetch s.bindings l.call = .ok i ∧
      execIn cfg i (s.advance rest) = .next t ∧ t.reply = some r ∧ stepIn cfg s = .next (t.bind l.dst r) :=
  runNext_cases s (execIn_delivers cfg)

@[simp] theorem lookupName_same (n : Name) (r : Reply) (bs : List (Name × Reply)) :
    lookupName n ((n, r) :: bs) = some r := by
  simp [lookupName]

theorem lookupName_other {m n : Name} (r : Reply) (bs : List (Name × Reply)) (h : m ≠ n) :
    lookupName n ((m, r) :: bs) = lookupName n bs := by
  simp [lookupName, h]

@[simp] theorem resolveByte_lit (bs : List (Name × Reply)) (b : Byte) : resolveByte bs (.lit b) = .ok b := rfl

@[simp] theorem resolveIndex_lit (bs : List (Name × Reply)) (k : Nat) : resolveIndex bs (.lit k) = .ok k := rfl

@[simp] theorem fetched_ok (i : Instr) : fetched (.ok i) = .ok i := rfl

@[simp] theorem fetched_error (e : DecodeError) : fetched (.error e) = .error (.malformedOperand e) := rfl

/-- A word of 8 bits is a record given to DECODEFULL. -/
theorem decodeWord_eight {w : Nat} (h : w < 256) : decodeWord 8 w = .ok (.decodeFull (BitVec.ofNat 8 w)) := by
  simp [decodeWord, h, decode, Rec8Op.instr]

/-- A word of 6 bits is the flat form given to LOOKUP. -/
theorem decodeWord_six {w : Nat} (h : w < 64) : decodeWord 6 w = decode .lookup [BitVec.ofNat 8 w] := by
  simp [decodeWord, h]

end Sys2Proof.Machine
end

