-- ==== Sys2Proof/Laws/PerInstr.lean ====
section
/-! SUPPORT. The shape of every evaluation's encoding, per constructor: the caller's selection and one byte of operand
bits (spec/30_encoding.md R39, R44, R46). -/

namespace Sys2Proof.Laws.EncodingShape

/-- An encoding names the function its evaluation invokes and holds exactly one byte; every well-formed evaluation
has one. -/
def Statement (i : Instr) : Prop :=
  (i.wf = true → ∃ e, encode i = some e) ∧ ∀ e, encode i = some e → e.1 = i.operation ∧ e.2.length = 1

theorem of_encoded {i : Instr} {bytes : List Byte} (h : encode i = some (i.operation, bytes))
    (hl : bytes.length = 1) : Statement i :=
  ⟨fun _ => ⟨_, h⟩, fun e he => by cases h.symm.trans he; exact ⟨rfl, hl⟩⟩

theorem gender (b : Byte) : Statement (.gender b) := of_encoded rfl rfl
theorem version (b : Byte) : Statement (.version b) := of_encoded rfl rfl
theorem active (b : Byte) : Statement (.active b) := of_encoded rfl rfl
theorem code (b : Byte) : Statement (.code b) := of_encoded rfl rfl
theorem decode (b : Byte) : Statement (.decode b) := of_encoded rfl rfl
theorem lookup (c v : Nat) : Statement (.lookup c v) := by
  by_cases h : c ≤ 15 ∧ v ≤ 3
  · exact of_encoded (if_pos h) rfl
  · refine ⟨fun hw => absurd (by simpa [Instr.wf] using hw) h, fun e he => ?_⟩
    rw [show encode (.lookup c v) = none from if_neg h] at he
    cases he
theorem decodeFull (b : Byte) : Statement (.decodeFull b) := of_encoded rfl rfl

end Sys2Proof.Laws.EncodingShape
end

