-- ==== Sys2Proof/Tests/Slice0.lean ====
section
/-! SUPPORT. Tests. Expected results come from spec/95_test_vectors.md (the section is named) or from the rule's own
corner cases; the last part holds a witness for each obligation that has hypotheses. -/

namespace Sys2Proof.Tests

open Sys2Proof.Machine

/-- The outcome a step or an evaluation delivered. -/
def replyOf : Host.Outcome State Fault Refusal → Option Reply
  | .next t => t.reply
  | .fault _ => none
  | .refused _ => none

/-- The bindings after a step or a run. -/
def bindingsOf : Host.Outcome State Fault Refusal → List (Name × Reply)
  | .next t => t.bindings
  | .fault _ => []
  | .refused _ => []

/-- The reset state with a program. -/
def loaded (p : List Line) : State := { State.reset with program := p }

/-! Well-formedness: an ill-formed term for each check. -/

theorem test_wf_code_16 : Instr.wf (.lookup 16 0) = false := by decide
theorem test_wf_version_4 : Instr.wf (.lookup 0 4) = false := by decide
theorem test_wf_last_pair : Instr.wf (.lookup 15 3) = true := by decide
theorem test_wf_name_empty : Name.wf [] = false := by decide
theorem test_wf_name_digit_first : Name.wf ['1', 'r'] = false := by decide
theorem test_wf_name_sign : Name.wf ['r', '-'] = false := by decide
theorem test_wf_line_dst : Line.wf ⟨['_'], .rec8 .code (.lit 0)⟩ = false := by decide
theorem test_wf_line_byte : Line.wf ⟨['r'], .rec8 .code (.name ['0'])⟩ = false := by decide
theorem test_wf_line_code : Line.wf ⟨['r'], .lookup (.name ['0']) (.lit 0)⟩ = false := by decide
theorem test_wf_line_version : Line.wf ⟨['r'], .lookup (.lit 0) (.field ['0'] .code)⟩ = false := by decide

/-! Decoding: words written out from `gvvacccc` and `ccccvv` (30_encoding.md R39, R44). -/

theorem test_decode_gender : decode (.rec8 .gender) [0b10000000#8] = .ok (.gender 0x80#8) := by rfl
theorem test_decode_version : decode (.rec8 .version) [0b01100000#8] = .ok (.version 0x60#8) := by rfl
theorem test_decode_active : decode (.rec8 .active) [0b00010000#8] = .ok (.active 0x10#8) := by rfl
theorem test_decode_code : decode (.rec8 .code) [0b00001111#8] = .ok (.code 0x0F#8) := by rfl
theorem test_decode_decode : decode (.rec8 .decode) [0b10010010#8] = .ok (.decode 0x92#8) := by rfl
theorem test_decode_lookup : decode .lookup [0b101011#8] = .ok (.lookup 10 3) := by rfl
theorem test_decode_decodeFull : decode (.rec8 .decodeFull) [0b00011000#8] = .ok (.decodeFull 0x18#8) := by rfl
theorem test_decode_no_byte : decode (.rec8 .decode) [] = .error (.recordLength 0) := by rfl
theorem test_decode_two_bytes : decode (.rec8 .decode) [1, 2] = .error (.recordLength 2) := by rfl
theorem test_decode_seven_bits : decode .lookup [0b1000000#8] = .error (.notSixBits 0x40#8) := by rfl
theorem test_decode_index_length : decode .lookup [0, 0] = .error (.indexLength 2) := by rfl
theorem test_table_word : decodeTableWord 8 0x92 = some (.decodeFull 0x92#8) := by rfl
theorem test_table_word_idx6 : decodeTableWord 6 0b101011 = some (.lookup 10 3) := by rfl
theorem test_table_word_nine_bits_of_value : decodeTableWord 8 0x1FF = none := by rfl
theorem test_table_word_seven_bits : decodeTableWord 7 0 = none := by rfl
theorem test_table_word_index_not_wrapped : decodeWord 6 256 = .error (.notATableWord 6 256) := by rfl
theorem test_encode_lookup : encode (.lookup 7 1) = some (.lookup, [0b00011101#8]) := by decide
theorem test_encode_out_of_range : encode (.lookup 0 4) = none := by decide

/-! The operations (95_test_vectors.md section 2.1, 2.2, 2.3, 2.4, 1.1). -/

theorem test_gender_9F : replyOf (exec (.gender 0x9F#8) State.reset) = some (.value (.gender 1)) := by decide
theorem test_gender_7F : replyOf (exec (.gender 0x7F#8) State.reset) = some (.value (.gender 0)) := by decide
theorem test_version_AA : replyOf (exec (.version 0xAA#8) State.reset) = some (.value (.version 1)) := by decide
theorem test_version_80 : replyOf (exec (.version 0x80#8) State.reset) = some (.value (.version 0)) := by decide
theorem test_active_E0 : replyOf (exec (.active 0xE0#8) State.reset) = some (.value (.active 0)) := by decide
theorem test_active_55 : replyOf (exec (.active 0x55#8) State.reset) = some (.value (.active 1)) := by decide
theorem test_code_F0 : replyOf (exec (.code 0xF0#8) State.reset) = some (.value (.code 0)) := by decide
theorem test_code_AA : replyOf (exec (.code 0xAA#8) State.reset) = some (.value (.code 10)) := by decide
theorem test_decode_record_6A :
    replyOf (exec (.decode 0x6A#8) State.reset) = some (.value (.record ⟨0, 3, 0, 10⟩)) := by decide
theorem test_lookup_last : replyOf (exec (.lookup 15 3) State.reset) = some (.value (.throughput 0x3981E#18)) := by decide
theorem test_lookup_17_3 :
    replyOf (exec (.lookup 17 3) State.reset) = some (.fault (.contractViolation 17 3)) := by decide
theorem test_decodeFull_B7 :
    replyOf (exec (.decodeFull 0xB7#8) State.reset) = some (.value (.full ⟨1, 1, 1, 7, 150⟩)) := by decide
theorem test_decodeFull_4C :
    replyOf (exec (.decodeFull 0x4C#8) State.reset) = some (.value (.full ⟨0, 2, 0, 12, 1560⟩)) := by decide
theorem test_toByte_5C : DecodedRecord.toByte ⟨0, 2, 1, 12⟩ = 0x5C#8 := by decide
theorem test_cause_of_fault : (Reply.fault (.contractViolation 16 0)).cause = 1 := by decide

/-! Steps and the notation (30_encoding.md R51, 95_test_vectors.md section 3). -/

theorem test_fetch_word_runs :
    replyOf (step (State.reset.withFetchWord 8 0x18)) = some (.value (.full ⟨0, 0, 1, 8, 15⟩)) := by decide
theorem test_read_lookup_line :
    lineOf "t = LOOKUP 16,r.version".toList = some ⟨['t'], .lookup (.lit 16) (.field ['r'] .version)⟩ := by decide
theorem test_read_hex_letters :
    lineOf "r = CODE 0xaF".toList = some ⟨['r'], .rec8 .code (.lit 0xAF#8)⟩ := by decide
theorem test_refused_word :
    step (State.reset.withFetchWord 7 0) = .refused (.malformedOperand (.notATableWord 7 0)) := by rfl
theorem test_read_bad_hex : lineOf "r = DECODE 0x1".toList = none := by decide
theorem test_P2_line_2 :
    bindingsOf (step { State.reset with
      program := [⟨['t'], .lookup (.field ['r'] .code) (.field ['r'] .version)⟩]
      bindings := [(['r'], .value (.record ⟨1, 1, 1, 7⟩))] }) =
    [(['t'], .value (.throughput 150)), (['r'], .value (.record ⟨1, 1, 1, 7⟩))] := by decide

/-! Witnesses: a state and operands that meet an obligation's hypotheses together. -/

theorem witness_LookupYieldsTheTableEntry : (15 : Nat) < 16 ∧ (3 : Nat) < 4 := by decide
theorem witness_ShiftAndMask_top_field : 7 + 1 ≤ 8 := by decide
theorem witness_ShiftAndMask_whole_byte : 0 + 8 ≤ 8 := by decide
theorem witness_DecodeLosesNothing : ∃ t t' : State,
    exec (.decode 0xFF#8) State.reset = .next t ∧ exec (.decode 0xFF#8) t = .next t' ∧ t.reply = t'.reply :=
  ⟨_, _, rfl, rfl, rfl⟩
theorem witness_ThroughputIgnores : 0x90#8 &&& 0x6F#8 = 0#8 := by decide
theorem witness_RomColumns : (14#4 : Code) ≤ 15#4 := by decide
theorem witness_RomWords_row : (2#2 : StoredVersion) ≤ 3#2 := by decide
theorem witness_RomWords_small : (romRead hardware 14#4 3#2).toNat ≠ 235550 := by decide
theorem witness_Fault_code : 15 < 16 ∨ 3 < 0 := by decide
theorem witness_Fault_version : 15 < 15 ∨ 3 < 4 := by decide
theorem witness_OutOfRangeIndex :
    (15 < 16 ∨ 3 < 4) ∧ (loaded [⟨['t'], .lookup (.lit 16) (.lit 4)⟩]).program =
      ⟨['t'], .lookup (.lit 16) (.lit 4)⟩ :: [] := ⟨by decide, rfl⟩
theorem witness_EvaluationIsIdempotent : ∃ t : State, exec (.lookup 16 0) State.reset = .next t := ⟨_, rfl⟩
theorem witness_Frame_record : ∃ t : State,
    exec (.code 0xFF#8) State.reset = .next t ∧ (Instr.code 0xFF#8).operation ≠ .lookup := ⟨_, rfl, by decide⟩
theorem witness_Frame_lookup_in_range : ∃ t : State, exec (.lookup 15 3) State.reset = .next t ∧
    (Instr.lookup 15 3).operation = .lookup ∧ (Instr.lookup 15 3).wf = true := ⟨_, rfl, by decide⟩
theorem witness_Frame_lookup_out_of_range : ∃ t : State, exec (.lookup 15 4) State.reset = .next t ∧
    (Instr.lookup 15 4).operation = .lookup ∧ (Instr.lookup 15 4).wf = false := ⟨_, rfl, by decide⟩
theorem witness_StepWithNothingPresented : State.reset.program = [] := rfl
theorem witness_StepEvaluatesTheNextLine :
    (loaded [⟨['r'], .rec8 .decode (.lit 0x92#8)⟩]).program = ⟨['r'], .rec8 .decode (.lit 0x92#8)⟩ :: [] ∧
    fetch (loaded []).bindings (.rec8 .decode (.lit 0x92#8)) = .ok (.decode 0x92#8) := ⟨rfl, rfl⟩
theorem witness_PresentedBits_ok : decode .lookup [63#8] = .ok (.lookup 15 3) := by rfl
theorem witness_PresentedBits_error :
    (loaded [⟨['t'], .encoded .lookup [64#8]⟩]).program = ⟨['t'], .encoded .lookup [64#8]⟩ :: [] ∧
    decode .lookup [64#8] = .error (.notSixBits 64#8) := ⟨rfl, rfl⟩
theorem witness_FetchedWord : decodeTableWord 8 255 = some (.decodeFull 255#8) := by rfl
theorem witness_DecodeAndEncode_wf : (Instr.lookup 15 3).wf = true := by decide
theorem witness_DecodeAndEncode_bits : decode (.rec8 .gender) [0xFF#8] = .ok (.gender 0xFF#8) := by rfl
theorem witness_StepKeepsOutcomesSound :
    (loaded [⟨['t'], .lookup (.lit 16) (.lit 0)⟩]).outcomesSound ∧
    ∃ t, step (loaded [⟨['t'], .lookup (.lit 16) (.lit 0)⟩]) = .next t :=
  ⟨⟨by simp [loaded, State.reset], by simp [loaded, State.reset]⟩, _, rfl⟩
theorem witness_ProgramRun :
    [(⟨['r'], .rec8 .decode (.lit 1#8)⟩ : Line), ⟨['t'], .lookup (.lit 16) (.lit 0)⟩].map
      (fun l => l.call.closedInstr) = [Instr.decode 1#8, .lookup 16 0].map some := by decide
theorem witness_EvaluationOrder :
    [(⟨['a'], .rec8 .code (.lit 1#8)⟩ : Line), ⟨['b'], .lookup (.lit 1) (.lit 0)⟩].Perm
      [⟨['b'], .lookup (.lit 1) (.lit 0)⟩, ⟨['a'], .rec8 .code (.lit 1#8)⟩] ∧
    ([(⟨['a'], .rec8 .code (.lit 1#8)⟩ : Line), ⟨['b'], .lookup (.lit 1) (.lit 0)⟩].map Line.dst).Nodup ∧
    ∀ l ∈ [(⟨['a'], .rec8 .code (.lit 1#8)⟩ : Line), ⟨['b'], .lookup (.lit 1) (.lit 0)⟩],
      (l.call.closedInstr).isSome = true := by decide
theorem witness_DecodeThenLookupProgram : (['r'] : Name) ≠ ['t'] ∧
    (loaded [⟨['r'], .rec8 .decode (.lit 0xB7#8)⟩,
      ⟨['t'], .lookup (.field ['r'] .code) (.field ['r'] .version)⟩]).program =
    ⟨['r'], .rec8 .decode (.lit 0xB7#8)⟩ ::
      ⟨['t'], .lookup (.field ['r'] .code) (.field ['r'] .version)⟩ :: [] := ⟨by decide, rfl⟩
theorem witness_OperandKinds_both :
    resolveIndex [(['c'], .value (.code 15#4))] (.name ['c']) = .ok 15 ∧
    resolveIndex [(['c'], .value (.code 15#4))] (.lit 3) = .ok 3 := ⟨rfl, rfl⟩
theorem witness_OperandKinds_first_is_a_fault :
    resolveIndex [(['r'], .fault (.contractViolation 16 0))] (.name ['r']) = .error (.operandNotBound ['r']) := by rfl
theorem witness_OperandKinds_second_is_a_record :
    resolveIndex [(['r'], .value (.record ⟨1, 1, 1, 7⟩))] (.lit 7) = .ok 7 ∧
    resolveIndex [(['r'], .value (.record ⟨1, 1, 1, 7⟩))] (.name ['r']) = .error (.operandNotBound ['r']) := ⟨rfl, rfl⟩
theorem witness_OperandKinds_no_throughput :
    resolveIndex [(['r'], .value (.record ⟨1, 1, 1, 7⟩))] (.field ['r'] .throughput) =
      .error (.operandNotBound ['r']) := by rfl
theorem witness_OnlyFittingWords_refused : decodeTableWord 6 64 = none ∧ decodeTableWord 8 256 = none := ⟨rfl, rfl⟩
theorem witness_OnlyFittingWords_last : (255 : Nat) < 256 ∧ (63 : Nat) < 64 := by decide
theorem witness_StepOverEveryTable :
    (loaded [⟨['t'], .lookup (.lit 15) (.lit 3)⟩]).program = ⟨['t'], .lookup (.lit 15) (.lit 3)⟩ :: [] ∧
    fetch (loaded []).bindings (.lookup (.lit 15) (.lit 3)) = .ok (.lookup 15 3) := ⟨rfl, rfl⟩
theorem witness_OnlyLookupAndDecodeFull : (15 : Nat) ≤ 15 ∧ (3 : Nat) ≤ 3 := by decide
theorem witness_DecodeAndEncode_ill_formed : (Instr.lookup 0 4).wf = false := by decide
theorem witness_ReadLines : lineOf "g = GENDER 0x6A".toList = some ⟨['g'], .rec8 .gender (.lit 0x6A#8)⟩ := by decide

end Sys2Proof.Tests
end

/-! Lemmas for the statements of 10_state.md: the field accessors as slices of the byte, the ROM read as an index into
the table. -/

namespace Sys2Proof.Machine

/-- A mask of `w` ones over the shifted byte keeps exactly the bits `lsb` to `lsb + w - 1` (R54, R60). A mask of the
byte's own width has at most 8 ones. -/
theorem extract_eq_extractLsb' (b : Byte) (lsb : Nat) {w : Nat} (hw : w ≤ 8) :
    extract b lsb w = b.extractLsb' lsb w := by
  apply BitVec.eq_of_getLsbD_eq
  intro i hi
  have hi8 : i < 8 := by omega
  simp [extract, BitVec.getLsbD_ofNat, Nat.testBit_two_pow_sub_one, hi, hi8]

theorem genderOf_eq_extractLsb' (b : Byte) : genderOf b = b.extractLsb' 7 1 :=
  extract_eq_extractLsb' b 7 (by decide)

theorem versionOf_eq_extractLsb' (b : Byte) : versionOf b = b.extractLsb' 5 2 :=
  extract_eq_extractLsb' b 5 (by decide)

theorem activeOf_eq_extractLsb' (b : Byte) : activeOf b = b.extractLsb' 4 1 :=
  extract_eq_extractLsb' b 4 (by decide)

theorem codeOf_eq_extractLsb' (b : Byte) : codeOf b = b.extractLsb' 0 4 :=
  extract_eq_extractLsb' b 0 (by decide)

/-- The flat address of a pair reads that pair's entry: row `c`, column `v` (R25, R27). -/
theorem romRead_eq_getElem (cfg : Config) (c : Code) (v : StoredVersion) :
    romRead cfg c v = cfg.ghzRom[c.toNat][v.toNat] := by
  simp [romRead, memRead]

/-- Settles O27: each field output is its accessor's slice of byte_i, each throughput output is the ROM read of its
group's index pair. -/
theorem outputsAreFunctionsOfInputs : Obligations.OutputsAreFunctionsOfInputs := by
  intro cfg s
  exact ⟨genderOf_eq_extractLsb' s.byteI, versionOf_eq_extractLsb' s.byteI, activeOf_eq_extractLsb' s.byteI,
    codeOf_eq_extractLsb' s.byteI, romRead_eq_getElem cfg s.codeO s.versionO,
    romRead_eq_getElem cfg s.lkCodeI s.lkVersionI⟩

end Sys2Proof.Machine

/-! Lemmas for the statements of 20_memory.md: the flat address as a number, MemRead at its quotient and remainder, and
a table of one word, which tells the operations that reach the ROM from those that do not. -/

namespace Sys2Proof.Machine

/-- The two version bits stand below the code, so the concatenation is `code * 4 + version` (R25). -/
theorem flatAddr_toNat (c : Code) (v : StoredVersion) : (flatAddr c v).toNat = c.toNat * 4 + v.toNat := by
  have hshift : c.toNat <<< 2 ||| v.toNat = c.toNat <<< 2 + v.toNat :=
    (Nat.shiftLeft_add_eq_or_of_lt v.isLt _).symm
  rw [flatAddr, BitVec.toNat_append, hshift, Nat.shiftLeft_eq]

/-- The row of a flat address is its quotient by 4; the shifted address already fits the row's 4 bits. -/
theorem flatCode_toNat (a : FlatAddr) : (flatCode a).toNat = (a >>> 2).toNat := by
  have hrow : a.toNat >>> 2 < 2 ^ 4 := by
    rw [Nat.shiftRight_eq_div_pow]
    omega
  simpa [flatCode] using hrow

/-- The column of a flat address is its remainder by 4, the mask of its two low bits. -/
theorem flatVersion_toNat (a : FlatAddr) : (flatVersion a).toNat = (a &&& 3#6).toNat := by
  have hmask : a.toNat &&& 3 = a.toNat % 4 := Nat.and_two_pow_sub_one_eq_mod a.toNat 2
  simp [flatVersion, hmask]

/-- `MemRead(a) = GHZ_ROM[a >> 2][a & 3]`, with both indices in range (R27). -/
theorem memRead_eq_getElem (cfg : Config) (a : FlatAddr) :
    ∃ (h : (a >>> 2).toNat < 16) (h' : (a &&& 3#6).toNat < 4),
      memRead cfg a = (cfg.ghzRom[(a >>> 2).toNat]'h)[(a &&& 3#6).toNat]'h' := by
  have hrow : (a >>> 2).toNat < 16 := flatCode_toNat a ▸ (flatCode a).isLt
  have hcol : (a &&& 3#6).toNat < 4 := flatVersion_toNat a ▸ (flatVersion a).isLt
  refine ⟨hrow, hcol, ?_⟩
  simp only [memRead, flatCode_toNat, flatVersion_toNat]

/-- Settles O9: the concatenation is `code * 4 + version`, MemRead indexes by quotient and remainder, and RomRead is
MemRead at the flat address. -/
theorem romReadIsTheEntryAtTheFlatAddress : Obligations.RomReadIsTheEntryAtTheFlatAddress :=
  ⟨fun c v => ⟨flatAddr_toNat c v, rfl⟩, memRead_eq_getElem, fun cfg c v => ⟨rfl, romRead_eq_getElem cfg c v⟩⟩

/-- The configuration whose ROM holds the word `t` at all 64 addresses. -/
def uniformConfig (t : Thr) : Config := ⟨Vector.replicate 16 (Vector.replicate 4 t)⟩

@[simp] theorem romRead_uniformConfig (t : Thr) (c : Code) (v : StoredVersion) :
    romRead (uniformConfig t) c v = t := by
  simp [romRead_eq_getElem, uniformConfig]

@[simp] theorem fullOf_throughput (cfg : Config) (b : Byte) :
    (fullOf cfg b).throughput = romRead cfg (recordOf b).code (recordOf b).version := rfl

/-- LOOKUP of a pair in range answers differently over two ROMs that hold different words. -/
theorem execIn_lookup_reaches_rom (s : State) {c v : Nat} (hc : c ≤ 15) (hv : v ≤ 3) :
    ∃ (cfg cfg' : Config) (t t' : State),
      execIn cfg (.lookup c v) s = .next t ∧ execIn cfg' (.lookup c v) s = .next t' ∧ t.reply ≠ t'.reply :=
  ⟨uniformConfig 0, uniformConfig 1, _, _, execLookupIn_inRange _ s hc hv, execLookupIn_inRange _ s hc hv, by simp⟩

/-- DECODEFULL of any byte answers differently over two ROMs that hold different words: the records differ in their
throughput. -/
theorem execIn_decodeFull_reaches_rom (b : Byte) (s : State) :
    ∃ (cfg cfg' : Config) (t t' : State),
      execIn cfg (.decodeFull b) s = .next t ∧ execIn cfg' (.decodeFull b) s = .next t' ∧ t.reply ≠ t'.reply := by
  have hne : fullOf (uniformConfig 0) b ≠ fullOf (uniformConfig 1) b := fun h => by
    simpa using congrArg FullRecord.throughput h
  exact ⟨uniformConfig 0, uniformConfig 1, _, _, execIn_decodeFull _ b s, execIn_decodeFull _ b s, by simpa using hne⟩

/-- Settles O50: the meanings of the field accessors and of DECODE take no configuration; a ROM of zeros and a ROM of
ones tell LOOKUP and DECODEFULL apart. -/
theorem onlyLookupAndDecodeFullReachTheRom : Obligations.OnlyLookupAndDecodeFullReachTheRom :=
  ⟨fun _ _ _ _ => ⟨rfl, rfl, rfl, rfl, rfl⟩, fun _ _ s hc hv => execIn_lookup_reaches_rom s hc hv,
    execIn_decodeFull_reaches_rom⟩

end Sys2Proof.Machine

/-! Lemmas for the statements of 30_encoding.md: what decode answers for a record operation, by the number of bytes. -/

namespace Sys2Proof

/-- One byte is a record, whatever the byte (R48). -/
@[simp] theorem decode_rec8_singleton (op : Rec8Op) (b : Byte) : decode (.rec8 op) [b] = .ok (op.instr b) := rfl

/-- Any other number of bytes is rejected by name (R4, R50). -/
theorem decode_rec8_of_length_ne_one (op : Rec8Op) {bytes : List Byte} (h : bytes.length ≠ 1) :
    decode (.rec8 op) bytes = .error (.recordLength bytes.length) := by
  match bytes, h with
  | [], _ => rfl
  | [_], h => exact absurd rfl h
  | _ :: _ :: _, _ => rfl

/-- Settles O34: a single byte decodes to the operation's evaluation of it, and any other length is an error. -/
theorem onlyOneByteIsARecord : Obligations.OnlyOneByteIsARecord := by
  intro op bytes
  constructor
  · rintro ⟨i, hi⟩
    by_contra hlen
    cases (decode_rec8_of_length_ne_one op hlen).symm.trans hi
  · intro hlen
    obtain ⟨b, rfl⟩ := List.length_eq_one_iff.mp hlen
    exact ⟨op.instr b, decode_rec8_singleton op b⟩

end Sys2Proof


/-! Lemmas for the statements of 40_bitfield_decode.md: the fields as shifts and masks, as quotients and remainders of
the byte, under a flip of bits, and under the reassembly of the byte. -/

namespace Sys2Proof.Machine

/-! Shift and mask as arithmetic (R54, R60). -/

/-- A mask of `w` ones takes the remainder by `2 ^ w`, as long as the mask fits the byte. -/
theorem and_mask_toNat (x : Byte) {w : Nat} (hw : w ≤ 8) :
    (x &&& BitVec.ofNat 8 (2 ^ w - 1)).toNat = x.toNat % 2 ^ w := by
  have hpow : 2 ^ w ≤ 2 ^ 8 := Nat.pow_le_pow_right (by decide) hw
  have hmask : (BitVec.ofNat 8 (2 ^ w - 1)).toNat = 2 ^ w - 1 := by
    rw [BitVec.toNat_ofNat]
    exact Nat.mod_eq_of_lt (by have := Nat.two_pow_pos w; omega)
  rw [BitVec.toNat_and, hmask, Nat.and_two_pow_sub_one_eq_mod]

/-- A field is the quotient of the byte by its place and the remainder by its size. -/
theorem extract_toNat (b : Byte) (lsb : Nat) {w : Nat} (hw : w ≤ 8) :
    (extract b lsb w).toNat = b.toNat / 2 ^ lsb % 2 ^ w := by
  rw [extract_eq_extractLsb' b lsb hw, BitVec.extractLsb'_toNat, Nat.shiftRight_eq_div_pow]

/-- Settles O10: a field inside the byte has at most 8 bits, so the mask keeps exactly its slice. -/
theorem shiftAndMaskIsTheBitSlice : Obligations.ShiftAndMaskIsTheBitSlice := by
  refine ⟨fun b lsb w h => ?_, fun _ => ⟨rfl, rfl, rfl, rfl⟩⟩
  have hw : w ≤ 8 := by omega
  exact ⟨rfl, extract_eq_extractLsb' b lsb hw, extract_toNat b lsb hw⟩

/-! The four fields as numbers, and the byte as their weighted sum (R60). -/

/-- The byte is below 256, so its quotient by 128 is one bit already. -/
theorem genderOf_toNat (b : Byte) : (genderOf b).toNat = b.toNat / 128 := by
  have hfield : (genderOf b).toNat = b.toNat / 128 % 2 := extract_toNat b 7 (by decide)
  have hbyte := b.isLt
  omega

theorem versionOf_toNat (b : Byte) : (versionOf b).toNat = b.toNat / 32 % 4 := extract_toNat b 5 (by decide)

theorem activeOf_toNat (b : Byte) : (activeOf b).toNat = b.toNat / 16 % 2 := extract_toNat b 4 (by decide)

theorem codeOf_toNat (b : Byte) : (codeOf b).toNat = b.toNat % 16 := by
  have hfield : (codeOf b).toNat = b.toNat / 1 % 16 := extract_toNat b 0 (by decide)
  rwa [Nat.div_one] at hfield

theorem toNat_eq_weighted_fields (b : Byte) :
    b.toNat =
      (genderOf b).toNat * 128 + (versionOf b).toNat * 32 + (activeOf b).toNat * 16 + (codeOf b).toNat := by
  rw [genderOf_toNat, versionOf_toNat, activeOf_toNat, codeOf_toNat]
  omega

/-- Settles O11: the laws of shift, mask and slice for every field, and the numbers of the four fields. -/
theorem fieldsObeyTheArithmeticLaws : Obligations.FieldsObeyTheArithmeticLaws := by
  refine ⟨fun b n => ?_, fun x _ hw => and_mask_toNat x hw, fun b lsb w h => ?_, fun b => ?_⟩
  · rw [BitVec.toNat_ushiftRight, Nat.shiftRight_eq_div_pow]
  · exact extract_eq_extractLsb' b lsb (by omega)
  · exact ⟨genderOf_toNat b, versionOf_toNat b, activeOf_toNat b, codeOf_toNat b, toNat_eq_weighted_fields b⟩

/-! The fields of a byte whose bits are flipped (R62). -/

theorem genderOf_xor (b m : Byte) : genderOf (b ^^^ m) = genderOf b ^^^ m.extractLsb' 7 1 := by
  rw [genderOf_eq_extractLsb', genderOf_eq_extractLsb', BitVec.extractLsb'_xor]

theorem versionOf_xor (b m : Byte) : versionOf (b ^^^ m) = versionOf b ^^^ m.extractLsb' 5 2 := by
  rw [versionOf_eq_extractLsb', versionOf_eq_extractLsb', BitVec.extractLsb'_xor]

theorem activeOf_xor (b m : Byte) : activeOf (b ^^^ m) = activeOf b ^^^ m.extractLsb' 4 1 := by
  rw [activeOf_eq_extractLsb', activeOf_eq_extractLsb', BitVec.extractLsb'_xor]

theorem codeOf_xor (b m : Byte) : codeOf (b ^^^ m) = codeOf b ^^^ m.extractLsb' 0 4 := by
  rw [codeOf_eq_extractLsb', codeOf_eq_extractLsb', BitVec.extractLsb'_xor]

/-- One bit changes under an xor exactly when the other bit is 1. -/
theorem bit_xor_ne_self_iff : ∀ g m : Bit, g ^^^ m ≠ g ↔ m = 1#1 := by decide

theorem genderOf_xor_ne_iff (b m : Byte) : genderOf (b ^^^ m) ≠ genderOf b ↔ m.getLsbD 7 = true := by
  rw [genderOf_xor, bit_xor_ne_self_iff, BitVec.getLsbD_eq_extractLsb', beq_iff_eq]

/-- Settles O13: a slice of `b xor m` is the slice of `b` xor the slice of `m`. -/
theorem fieldsAreBitIndependent : Obligations.FieldsAreBitIndependent := fun b m s =>
  ⟨_, _, recordOf b, recordOf (b ^^^ m), exec_decode b s, rfl, exec_decode (b ^^^ m) s, rfl,
    genderOf_xor_ne_iff b m, versionOf_xor b m, activeOf_xor b m, codeOf_xor b m⟩

/-! The reassembly is the inverse of the four fields (R63). -/

/-- The fields' ranges bound their weighted sum by 255, so nothing is lost in the byte. -/
theorem DecodedRecord.toByte_toNat (r : DecodedRecord) :
    r.toByte.toNat = r.gender.toNat * 128 + r.version.toNat * 32 + r.active.toNat * 16 + r.code.toNat := by
  have hgender := r.gender.isLt
  have hversion := r.version.isLt
  have hactive := r.active.isLt
  have hcode := r.code.isLt
  rw [DecodedRecord.toByte, BitVec.toNat_ofNat]
  omega

@[simp] theorem toByte_recordOf (b : Byte) : (recordOf b).toByte = b :=
  BitVec.eq_of_toNat_eq ((DecodedRecord.toByte_toNat _).trans (toNat_eq_weighted_fields b).symm)

/-- A field of a reassembled byte is the record's: the weighted sum has one quotient and remainder at each place. -/
@[simp] theorem recordOf_toByte (r : DecodedRecord) : recordOf r.toByte = r := by
  have hsum := r.toByte_toNat
  have hversion := r.version.isLt
  have hactive := r.active.isLt
  have hcode := r.code.isLt
  have gender_eq : genderOf r.toByte = r.gender :=
    BitVec.eq_of_toNat_eq (by rw [genderOf_toNat]; omega)
  have version_eq : versionOf r.toByte = r.version :=
    BitVec.eq_of_toNat_eq (by rw [versionOf_toNat]; omega)
  have active_eq : activeOf r.toByte = r.active :=
    BitVec.eq_of_toNat_eq (by rw [activeOf_toNat]; omega)
  have code_eq : codeOf r.toByte = r.code :=
    BitVec.eq_of_toNat_eq (by rw [codeOf_toNat]; omega)
  rw [recordOf, gender_eq, version_eq, active_eq, code_eq]

theorem recordOf_injective : Function.Injective recordOf :=
  Function.LeftInverse.injective toByte_recordOf

/-- Equal outcomes of DECODE come from equal bytes. -/
theorem byte_eq_of_exec_decode_reply_eq {b b' : Byte} {s s' t t' : State} (ht : exec (.decode b) s = .next t)
    (ht' : exec (.decode b') s' = .next t') (hreply : t.reply = t'.reply) : b = b' := by
  cases (exec_decode b s).symm.trans ht
  cases (exec_decode b' s').symm.trans ht'
  have hrecord : recordOf b = recordOf b' := by simpa using hreply
  exact recordOf_injective hrecord

/-- Settles O14: fields and reassembly are inverse to each other, so DECODE's outcome determines its byte. -/
theorem decodeLosesNothing : Obligations.DecodeLosesNothing :=
  ⟨toByte_recordOf, recordOf_toByte, DecodedRecord.toByte_toNat,
    fun _ _ _ _ _ _ => byte_eq_of_exec_decode_reply_eq⟩

/-! The accessors and DECODE (R55 to R59, R61), with the encodings of their results (R41 to R43). -/

theorem genderOf_eq_shift_and (b : Byte) : genderOf b = ((b >>> 7) &&& 1#8).setWidth 1 := rfl

theorem versionOf_eq_shift_and (b : Byte) : versionOf b = ((b >>> 5) &&& 3#8).setWidth 2 := rfl

theorem activeOf_eq_shift_and (b : Byte) : activeOf b = ((b >>> 4) &&& 1#8).setWidth 1 := rfl

theorem codeOf_eq_shift_and (b : Byte) : codeOf b = ((b >>> 0) &&& 15#8).setWidth 4 := rfl

/-- A field of one bit is the bit at its place. -/
theorem extract_one_toNat (b : Byte) (lsb : Nat) : (extract b lsb 1).toNat = (b.getLsbD lsb).toNat := by
  rw [extract_toNat b lsb (by decide), BitVec.getLsbD, Nat.toNat_testBit, Nat.pow_one]

/-- The top bit is 1 exactly in the upper half of the bytes (R55). -/
theorem genderOf_eq_one_iff (b : Byte) : genderOf b = 1#1 ↔ 128 ≤ b.toNat := by
  have hbyte := b.isLt
  rw [← BitVec.toNat_inj, genderOf_toNat, BitVec.toNat_one (by decide)]
  omega

theorem genderName_iff : ∀ g : Bit, (genderName g = .male ↔ g = 1#1) ∧ (genderName g = .female ↔ g = 0#1) := by
  decide

theorem versionName_iff : ∀ v : StoredVersion,
    (versionName v = .v1 ↔ v.toNat = 0) ∧ (versionName v = .v2 ↔ v.toNat = 1) ∧
    (versionName v = .v3 ↔ v.toNat = 2) ∧ (versionName v = .v4 ↔ v.toNat = 3) := by
  decide

theorem isActive_iff : ∀ a : Bit, (isActive a = true ↔ a = 1#1) ∧ (isActive a = false ↔ a = 0#1) := by
  decide

theorem bit_toNat_mem : ∀ g : Bit, g.toNat ∈ [0, 1] := by decide

theorem storedVersion_toNat_mem : ∀ v : StoredVersion, v.toNat ∈ [0, 1, 2, 3] := by decide

theorem code_toNat_le (c : Code) : c.toNat ≤ 15 := Nat.le_of_lt_succ c.isLt

/-- Settles O1: GENDER delivers `genderOf b`, the bit at place 7. -/
theorem genderYieldsBitSeven : Obligations.GenderYieldsBitSeven := fun b s =>
  ⟨_, genderOf b, exec_gender b s, rfl, rfl, genderOf_eq_shift_and b, extract_one_toNat b 7,
    genderOf_eq_one_iff b, genderName_iff (genderOf b)⟩

/-- Settles O2: VERSION delivers `versionOf b`, the two bits at place 5, named by their stored value. -/
theorem versionYieldsBitsSixToFive : Obligations.VersionYieldsBitsSixToFive := fun b s =>
  ⟨_, versionOf b, exec_version b s, rfl, rfl, versionOf_eq_shift_and b, versionOf_eq_extractLsb' b,
    storedVersion_toNat_mem (versionOf b), versionName_iff (versionOf b)⟩

/-- Settles O3: ACTIVE delivers `activeOf b`, the bit at place 4. -/
theorem activeYieldsBitFour : Obligations.ActiveYieldsBitFour := fun b s =>
  ⟨_, activeOf b, exec_active b s, rfl, rfl, activeOf_eq_shift_and b, extract_one_toNat b 4,
    isActive_iff (activeOf b)⟩

/-- Settles O4: CODE delivers `codeOf b`, the remainder by 16. -/
theorem codeYieldsLowNibble : Obligations.CodeYieldsLowNibble := fun b s =>
  ⟨_, codeOf b, exec_code b s, rfl, rfl, codeOf_eq_shift_and b, codeOf_eq_extractLsb' b, codeOf_toNat b,
    code_toNat_le (codeOf b)⟩

/-- Settles O5: DECODE's record holds the four values the accessors deliver for the same byte. -/
theorem decodeYieldsTheFourFields : Obligations.DecodeYieldsTheFourFields := fun b s =>
  ⟨_, recordOf b, exec_decode b s, rfl,
    genderOf_eq_shift_and b, versionOf_eq_shift_and b, activeOf_eq_shift_and b, codeOf_eq_shift_and b,
    ⟨_, exec_gender b s, rfl⟩, ⟨_, exec_version b s, rfl⟩, ⟨_, exec_active b s, rfl⟩, ⟨_, exec_code b s, rfl⟩,
    rfl, rfl, rfl, rfl⟩

/-- Settles O12: DECODE completes on every byte, and each field's width bounds it. -/
theorem decodeIsTotal : Obligations.DecodeIsTotal := fun b s =>
  ⟨_, recordOf b, exec_decode b s, rfl, bit_toNat_mem _, storedVersion_toNat_mem _, bit_toNat_mem _,
    code_toNat_le _⟩

end Sys2Proof.Machine

/-! Lemmas for the statements of 41_gigahertz_lookup.md: the words of the default table and their order. Facts of the 64
literals are decided on the literals, neighbours only where an order is in question; what follows from them is derived. -/

namespace Sys2Proof.Machine

/-- Settles O8: the literals of the default table, row after row. -/
theorem romHoldsTheStatedTable : Obligations.RomHoldsTheStatedTable := by
  unfold Obligations.RomHoldsTheStatedTable
  decide

/-! The order of the words (R70, R71): neighbours are in order, hence every column and every row is monotone. -/

theorem romRead_hardware_le_next_code : ∀ (v : StoredVersion) (c : Fin 15),
    (romRead hardware (BitVec.ofFin c.castSucc) v).toNat ≤ (romRead hardware (BitVec.ofFin c.succ) v).toNat := by
  decide

theorem romRead_hardware_le_next_version : ∀ (c : Code) (v : Fin 3),
    (romRead hardware c (BitVec.ofFin v.castSucc)).toNat ≤ (romRead hardware c (BitVec.ofFin v.succ)).toNat := by
  decide

theorem romRead_hardware_monotone_code (v : StoredVersion) :
    Monotone fun c : Fin 16 => (romRead hardware (BitVec.ofFin c) v).toNat :=
  Fin.monotone_iff_le_succ.mpr (romRead_hardware_le_next_code v)

theorem romRead_hardware_monotone_version (c : Code) :
    Monotone fun v : Fin 4 => (romRead hardware c (BitVec.ofFin v)).toNat :=
  Fin.monotone_iff_le_succ.mpr (romRead_hardware_le_next_version c)

/-- Settles O17: each column is monotone in the code. -/
theorem romColumnsAreNonDecreasing : Obligations.RomColumnsAreNonDecreasing :=
  fun v _ _ hle => romRead_hardware_monotone_code v hle

/-! The extreme words (R71). -/

theorem romRead_hardware_eq_zero_iff : ∀ (c : Code) (v : StoredVersion), (romRead hardware c v).toNat = 0 ↔
    (c.toNat, v.toNat) ∈ [(0, 0), (0, 1), (0, 2), (1, 0), (1, 1), (2, 0), (3, 0)] := by
  decide

theorem romRead_hardware_last {c : Code} {v : StoredVersion} (h : c.toNat = 15 ∧ v.toNat = 3) :
    (romRead hardware c v).toNat = 235550 := by
  obtain ⟨hc, hv⟩ := h
  simp [romRead_eq_getElem, hc, hv, hardware, ghzRomDefault]

/-- The second largest word is 23500. -/
theorem romRead_hardware_le_of_not_last : ∀ (c : Code) (v : StoredVersion), ¬(c.toNat = 15 ∧ v.toNat = 3) →
    (romRead hardware c v).toNat ≤ 23500 := by
  decide

theorem romRead_hardware_eq_max_iff (c : Code) (v : StoredVersion) :
    (romRead hardware c v).toNat = 235550 ↔ c.toNat = 15 ∧ v.toNat = 3 := by
  refine ⟨fun hmax => ?_, romRead_hardware_last⟩
  by_contra hlast
  have hle := romRead_hardware_le_of_not_last c v hlast
  omega

theorem romRead_hardware_le_of_ne_max {c : Code} {v : StoredVersion} (hne : (romRead hardware c v).toNat ≠ 235550) :
    (romRead hardware c v).toNat ≤ 23500 :=
  romRead_hardware_le_of_not_last c v (mt romRead_hardware_last hne)

theorem romRead_hardware_le_max (c : Code) (v : StoredVersion) : (romRead hardware c v).toNat ≤ 235550 := by
  by_cases hmax : (romRead hardware c v).toNat = 235550
  · exact hmax.le
  · exact (romRead_hardware_le_of_ne_max hmax).trans (by decide)

/-- The number of distinct words, counted on the literals of the table. -/
theorem memRead_hardware_dedup_length :
    ((List.finRange 64).map (fun a => (memRead hardware (BitVec.ofFin a)).toNat)).dedup.length = 35 :=
  (congrArg (fun words => words.dedup.length) romHoldsTheStatedTable).trans (by decide)

/-- Settles O18: one word is 235550 and the others are at most 23500, which bounds them all and gives the 15 bits; each
row is monotone in the version; the zeros and the distinct words are those of the literals. -/
theorem romWordsAreInRange : Obligations.RomWordsAreInRange :=
  ⟨romRead_hardware_le_max, romRead_hardware_eq_zero_iff, romRead_hardware_eq_max_iff,
    fun c _ _ hle => romRead_hardware_monotone_version c hle, memRead_hardware_dedup_length,
    fun _ _ hne => (romRead_hardware_le_of_ne_max hne).trans_lt (by decide)⟩

end Sys2Proof.Machine

/-! Lemmas for the statements of 42_decode_full.md: LOOKUP of a pair of the ports' own widths, the throughput as the
word at the record's own pair, flips of bits that reach no index, and the bytes of one index pair. -/

namespace Sys2Proof.Machine

/-! The composition of DECODE and LOOKUP (R75, R76). -/

/-- A pair of the ports' own widths is in range, so LOOKUP never faults on it (R66). -/
theorem execLookupIn_toNat (cfg : Config) (c : Code) (v : StoredVersion) (s : State) :
    execLookupIn cfg c.toNat v.toNat s =
      .next ((s.presentIndex c v).deliver (.value (.throughput (romRead cfg c v)))) := by
  have hv : v.toNat ≤ 3 := Nat.le_of_lt_succ v.isLt
  rw [execLookupIn_inRange cfg s (code_toNat_le c) hv, BitVec.ofNat_toNat, BitVec.ofNat_toNat,
    BitVec.setWidth_eq, BitVec.setWidth_eq]

/-- Settles O15: DECODEFULL's throughput is the ROM read at its own code and version, a pair LOOKUP's ports carry. -/
theorem decodeFullIsDecodeThenLookup : Obligations.DecodeFullIsDecodeThenLookup := fun b s =>
  ⟨_, _, _, fullOf hardware b, exec_decodeFull b s, rfl,
    execLookupIn_toNat hardware (codeOf b) (versionOf b) s, rfl, exec_decode b s, rfl⟩

/-- The word at row `b[3:0]`, column `b[6:5]` (R75). -/
theorem fullOf_throughput_eq_getElem (cfg : Config) (b : Byte) :
    (fullOf cfg b).throughput = cfg.ghzRom[(b.extractLsb' 0 4).toNat][(b.extractLsb' 5 2).toNat] :=
  calc (fullOf cfg b).throughput
    _ = romRead cfg (codeOf b) (versionOf b) := rfl
    _ = romRead cfg (b.extractLsb' 0 4) (b.extractLsb' 5 2) := by
      rw [codeOf_eq_extractLsb', versionOf_eq_extractLsb']
    _ = cfg.ghzRom[(b.extractLsb' 0 4).toNat][(b.extractLsb' 5 2).toNat] := romRead_eq_getElem cfg _ _

/-- Settles O7: the record is DECODE's with the table word at its own pair, and the outputs are the same functions of
the byte that was driven. -/
theorem decodeFullYieldsRecordWithThroughput : Obligations.DecodeFullYieldsRecordWithThroughput := fun b s =>
  ⟨_, _, fullOf hardware b, exec_decodeFull b s, rfl, exec_decode b s, rfl, fullOf_throughput_eq_getElem hardware b,
    rfl, rfl, rfl, rfl, rfl⟩

/-! Bits 7 and 4 reach no index (R77). -/

/-- A field is zero where all its bits are masked away: the mask is all ones there. -/
theorem extractLsb'_eq_zero_of_and_eq_zero {m mask : Byte} {lsb w : Nat} (hm : m &&& mask = 0#8)
    (hmask : mask.extractLsb' lsb w = BitVec.allOnes w) : m.extractLsb' lsb w = 0#w :=
  calc m.extractLsb' lsb w
    _ = (m &&& mask).extractLsb' lsb w := by rw [BitVec.extractLsb'_and, hmask, BitVec.and_allOnes]
    _ = 0#w := by rw [hm, BitVec.extractLsb'_zero]

theorem codeOf_xor_of_and_eq_zero (b : Byte) {m : Byte} (hm : m &&& 0x6F#8 = 0#8) :
    codeOf (b ^^^ m) = codeOf b := by
  rw [codeOf_xor, extractLsb'_eq_zero_of_and_eq_zero hm (by decide), BitVec.xor_zero]

theorem versionOf_xor_of_and_eq_zero (b : Byte) {m : Byte} (hm : m &&& 0x6F#8 = 0#8) :
    versionOf (b ^^^ m) = versionOf b := by
  rw [versionOf_xor, extractLsb'_eq_zero_of_and_eq_zero hm (by decide), BitVec.xor_zero]

theorem fullOf_throughput_xor_of_and_eq_zero (cfg : Config) (b : Byte) {m : Byte} (hm : m &&& 0x6F#8 = 0#8) :
    (fullOf cfg (b ^^^ m)).throughput = (fullOf cfg b).throughput := by
  simp only [fullOf_throughput, recordOf, codeOf_xor_of_and_eq_zero b hm, versionOf_xor_of_and_eq_zero b hm]

/-! The bytes of one index pair (R77): by the correspondence of bytes and records (R63), one for every choice of
`gender` and `active`. -/

theorem toByte_injective : Function.Injective DecodedRecord.toByte :=
  Function.LeftInverse.injective recordOf_toByte

/-- The choices of `gender` and `active`. -/
def genderActivePairs : List (Bit × Bit) := [(0, 0), (0, 1), (1, 0), (1, 1)]

theorem mem_genderActivePairs : ∀ g a : Bit, (g, a) ∈ genderActivePairs := by decide

/-- The number of the byte with the given fields. -/
def byteIndex (c : Code) (v : StoredVersion) (ga : Bit × Bit) : Fin 256 :=
  (DecodedRecord.toByte ⟨ga.1, v, ga.2, c⟩).toFin

theorem byteIndex_injective (c : Code) (v : StoredVersion) : Function.Injective (byteIndex c v) := by
  intro ga ga' h
  have hrecord : (⟨ga.1, v, ga.2, c⟩ : DecodedRecord) = ⟨ga'.1, v, ga'.2, c⟩ :=
    toByte_injective (BitVec.eq_of_toFin_eq h)
  exact Prod.ext (congrArg DecodedRecord.gender hrecord) (congrArg DecodedRecord.active hrecord)

/-- The bytes of a pair are the reassemblies of the records that hold the pair. -/
theorem mem_map_byteIndex_iff (c : Code) (v : StoredVersion) (n : Fin 256) :
    n ∈ genderActivePairs.map (byteIndex c v) ↔ codeOf (BitVec.ofFin n) = c ∧ versionOf (BitVec.ofFin n) = v := by
  rw [List.mem_map]
  constructor
  · rintro ⟨ga, -, rfl⟩
    have hrecord := recordOf_toByte ⟨ga.1, v, ga.2, c⟩
    exact ⟨congrArg DecodedRecord.code hrecord, congrArg DecodedRecord.version hrecord⟩
  · rintro ⟨rfl, rfl⟩
    exact ⟨_, mem_genderActivePairs (genderOf (BitVec.ofFin n)) (activeOf (BitVec.ofFin n)),
      congrArg BitVec.toFin (toByte_recordOf (BitVec.ofFin n))⟩

theorem length_bytes_of_pair (c : Code) (v : StoredVersion) :
    ((List.finRange 256).filter fun n =>
      codeOf (BitVec.ofFin n) = c ∧ versionOf (BitVec.ofFin n) = v).length = 4 := by
  have hpairs : genderActivePairs.Nodup := by decide
  refine List.Perm.length_eq (l₂ := genderActivePairs.map (byteIndex c v)) ?_
  rw [List.perm_ext_iff_of_nodup ((List.nodup_finRange 256).filter _) (hpairs.map (byteIndex_injective c v))]
  intro n
  rw [mem_map_byteIndex_iff, List.mem_filter, decide_eq_true_iff]
  exact and_iff_right (List.mem_finRange n)

/-- Settles O16: a mask of bits 7 and 4 leaves both indices alone, and the bytes of a pair differ in those two bits. -/
theorem throughputIgnoresGenderAndActive : Obligations.ThroughputIgnoresGenderAndActive :=
  ⟨fun cfg b m s hm => ⟨_, _, fullOf cfg b, fullOf cfg (b ^^^ m), execIn_decodeFull cfg b s, rfl,
      execIn_decodeFull cfg (b ^^^ m) s, rfl, (fullOf_throughput_xor_of_and_eq_zero cfg b hm).symm⟩,
    fun _ _ => rfl, length_bytes_of_pair⟩

end Sys2Proof.Machine

/-! Lemmas for the statements that decode and encode agree, and that bare words are read at the table's widths. Every
evaluation is a record operation on a byte or a LOOKUP of a pair, and the bits of a pair are a number below 64. -/

namespace Sys2Proof.Machine

/-! Evaluations as a record operation on a byte, or a LOOKUP of a pair (30_encoding.md R46, R47). -/

theorem eq_rec8_or_lookup (i : Instr) : (∃ op b, i = Rec8Op.instr op b) ∨ ∃ c v, i = .lookup c v := by
  cases i with
  | gender b => exact .inl ⟨.gender, b, rfl⟩
  | version b => exact .inl ⟨.version, b, rfl⟩
  | active b => exact .inl ⟨.active, b, rfl⟩
  | code b => exact .inl ⟨.code, b, rfl⟩
  | decode b => exact .inl ⟨.decode, b, rfl⟩
  | decodeFull b => exact .inl ⟨.decodeFull, b, rfl⟩
  | lookup c v => exact .inr ⟨c, v, rfl⟩

@[simp] theorem wf_rec8 (op : Rec8Op) (b : Byte) : (op.instr b).wf = true := by
  cases op <;> rfl

@[simp] theorem operation_rec8 (op : Rec8Op) (b : Byte) : (op.instr b).operation = .rec8 op := by
  cases op <;> rfl

@[simp] theorem encode_rec8 (op : Rec8Op) (b : Byte) : encode (op.instr b) = some (.rec8 op, [b]) := by
  cases op <;> rfl

@[simp] theorem wf_lookup_iff (c v : Nat) : (Instr.lookup c v).wf = true ↔ c ≤ 15 ∧ v ≤ 3 := by
  simp [Instr.wf]

theorem wf_lookup_eq_false_iff (c v : Nat) : (Instr.lookup c v).wf = false ↔ 15 < c ∨ 3 < v := by
  rw [← Bool.not_eq_true, wf_lookup_iff]
  omega

theorem encode_lookup_of_inRange {c v : Nat} (h : c ≤ 15 ∧ v ≤ 3) :
    encode (.lookup c v) = some (.lookup, [BitVec.ofNat 8 (c * 4 + v)]) := if_pos h

theorem encode_lookup_of_outOfRange {c v : Nat} (h : ¬(c ≤ 15 ∧ v ≤ 3)) : encode (.lookup c v) = none := if_neg h

/-! Decoding, and its agreement with encoding (30_encoding.md R44, R48, R49). -/

/-- A byte below 64 is the flat form of the pair of its quotient and remainder by 4 (entry 10). -/
theorem decode_lookup_of_lt {b : Byte} (h : b.toNat < 64) :
    decode .lookup [b] = .ok (.lookup (b.toNat / 4) (b.toNat % 4)) := by
  have hflat : (b.setWidth 6).toNat = b.toNat := by simpa using h
  have hcode : (flatCode (b.setWidth 6)).toNat = b.toNat / 4 := by
    rw [flatCode_toNat, BitVec.toNat_ushiftRight, hflat, Nat.shiftRight_eq_div_pow]
  have hversion : (flatVersion (b.setWidth 6)).toNat = b.toNat % 4 := by
    rw [flatVersion, BitVec.extractLsb'_toNat, hflat, Nat.shiftRight_zero]
  simp [decode, h, hcode, hversion]

/-- Only a byte below 64 decodes to a LOOKUP. -/
theorem decode_lookup_eq_ok {bytes : List Byte} {i : Instr} (h : decode .lookup bytes = .ok i) :
    ∃ b : Byte, bytes = [b] ∧ b.toNat < 64 ∧ i = .lookup (b.toNat / 4) (b.toNat % 4) := by
  match bytes, h with
  | [], h => cases h
  | _ :: _ :: _, h => cases h
  | [b], h =>
    by_cases hb : b.toNat < 64
    · cases (decode_lookup_of_lt hb).symm.trans h
      exact ⟨b, rfl, hb, rfl⟩
    · simp [decode, hb] at h

/-- Only a single byte decodes to a record operation. -/
theorem decode_rec8_eq_ok {op : Rec8Op} {bytes : List Byte} {i : Instr} (h : decode (.rec8 op) bytes = .ok i) :
    ∃ b : Byte, bytes = [b] ∧ i = op.instr b := by
  obtain ⟨b, rfl⟩ := List.length_eq_one_iff.mp ((onlyOneByteIsARecord op bytes).mp ⟨i, h⟩)
  cases (decode_rec8_singleton op b).symm.trans h
  exact ⟨b, rfl, rfl⟩

/-- The number `c * 4 + v` of a pair in range is below 64, and its quotient and remainder by 4 are the pair. -/
theorem decode_lookup_of_inRange {c v : Nat} (h : c ≤ 15 ∧ v ≤ 3) :
    decode .lookup [BitVec.ofNat 8 (c * 4 + v)] = .ok (.lookup c v) := by
  have hbyte : (BitVec.ofNat 8 (c * 4 + v)).toNat = c * 4 + v := by
    rw [BitVec.toNat_ofNat]
    omega
  have hquot : (c * 4 + v) / 4 = c := by omega
  have hrem : (c * 4 + v) % 4 = v := by omega
  rw [decode_lookup_of_lt (by omega), hbyte, hquot, hrem]

theorem decode_encode {i : Instr} (h : i.wf = true) :
    ∃ (op : Operation) (bytes : List Byte), encode i = some (op, bytes) ∧ decode op bytes = .ok i := by
  obtain ⟨op, b, rfl⟩ | ⟨c, v, rfl⟩ := eq_rec8_or_lookup i
  · exact ⟨_, _, encode_rec8 op b, decode_rec8_singleton op b⟩
  · have hrange := (wf_lookup_iff c v).mp h
    exact ⟨_, _, encode_lookup_of_inRange hrange, decode_lookup_of_inRange hrange⟩

theorem encode_of_not_wf {i : Instr} (h : i.wf = false) : encode i = none := by
  obtain ⟨op, b, rfl⟩ | ⟨c, v, rfl⟩ := eq_rec8_or_lookup i
  · simp at h
  · have hrange := (wf_lookup_eq_false_iff c v).mp h
    exact encode_lookup_of_outOfRange (by omega)

theorem encode_decode {op : Operation} {bytes : List Byte} {i : Instr} (h : decode op bytes = .ok i) :
    i.wf = true ∧ encode i = some (op, bytes) := by
  cases op with
  | rec8 op =>
    obtain ⟨b, rfl, rfl⟩ := decode_rec8_eq_ok h
    exact ⟨wf_rec8 op b, encode_rec8 op b⟩
  | lookup =>
    obtain ⟨b, rfl, hb, rfl⟩ := decode_lookup_eq_ok h
    have hrange : b.toNat / 4 ≤ 15 ∧ b.toNat % 4 ≤ 3 := by omega
    have hnum : b.toNat / 4 * 4 + b.toNat % 4 = b.toNat := by omega
    have hbyte : BitVec.ofNat 8 (b.toNat / 4 * 4 + b.toNat % 4) = b := by
      rw [hnum, BitVec.ofNat_toNat, BitVec.setWidth_eq]
    exact ⟨(wf_lookup_iff _ _).mpr hrange, (encode_lookup_of_inRange hrange).trans (by rw [hbyte])⟩

/-- Settles O35: a record operation's bits are its byte, a pair's are the number `c * 4 + v`, which determines it. -/
theorem decodeAndEncodeAgree : Obligations.DecodeAndEncodeAgree :=
  ⟨fun _ => decode_encode, fun _ => encode_of_not_wf, fun _ _ _ => encode_decode⟩

/-- The six bits `ccccvv` of a pair, as a byte, are the number `c * 4 + v`. -/
theorem decode_lookup_append (c : Code) (v : StoredVersion) :
    decode .lookup [(c ++ v).setWidth 8] = .ok (.lookup c.toNat v.toNat) := by
  have hv : v.toNat ≤ 3 := Nat.le_of_lt_succ v.isLt
  have hbyte : (c ++ v).setWidth 8 = BitVec.ofNat 8 (c.toNat * 4 + v.toNat) := by
    rw [← flatAddr_toNat, BitVec.ofNat_toNat, flatAddr]
  rw [hbyte, decode_lookup_of_inRange ⟨code_toNat_le c, hv⟩]

/-- Settles O33: a record operation reads and writes its byte as it is, and `ccccvv` is the number of its pair. -/
theorem everyOperandEncodingIsValid : Obligations.EveryOperandEncodingIsValid :=
  ⟨fun op b => ⟨decode_rec8_singleton op b, encode_rec8 op b⟩, decode_lookup_append⟩

/-- Settles O36: four literal words. -/
theorem writtenOutWordsDecode : Obligations.WrittenOutWordsDecode := ⟨rfl, rfl, rfl, rfl⟩

/-! Bare words of the opcode table (30_encoding.md R46, R53; entry 1). -/

theorem decodeTableWord_eq_some_iff (nbits w : Nat) (i : Instr) :
    decodeTableWord nbits w = some i ↔ decodeWord nbits w = .ok i := by
  rw [decodeTableWord]
  cases decodeWord nbits w <;> simp

theorem decodeTableWord_eight {w : Nat} (h : w < 256) :
    decodeTableWord 8 w = some (.decodeFull (BitVec.ofNat 8 w)) :=
  (decodeTableWord_eq_some_iff _ _ _).mpr (decodeWord_eight h)

theorem decodeTableWord_six {w : Nat} (h : w < 64) : decodeTableWord 6 w = some (.lookup (w / 4) (w % 4)) := by
  have hbyte : (BitVec.ofNat 8 w).toNat = w := by
    rw [BitVec.toNat_ofNat]
    omega
  rw [decodeTableWord_eq_some_iff, decodeWord_six h, decode_lookup_of_lt (by omega), hbyte]

/-- A word of another width, or too large for its width, is rejected by name. -/
theorem decodeWord_of_unfit {nbits w : Nat} (h : ¬((nbits = 8 ∧ w < 256) ∨ (nbits = 6 ∧ w < 64))) :
    decodeWord nbits w = .error (.notATableWord nbits w) := by
  obtain ⟨h8, h6⟩ := not_or.mp h
  rw [decodeWord, if_neg h8, if_neg h6]

theorem exists_decodeTableWord_iff (nbits w : Nat) :
    (∃ i, decodeTableWord nbits w = some i) ↔ (nbits = 8 ∧ w < 256) ∨ (nbits = 6 ∧ w < 64) := by
  constructor
  · rintro ⟨i, hi⟩
    by_contra hfit
    cases (decodeWord_of_unfit hfit).symm.trans ((decodeTableWord_eq_some_iff _ _ _).mp hi)
  · rintro (⟨rfl, hw⟩ | ⟨rfl, hw⟩)
    · exact ⟨_, decodeTableWord_eight hw⟩
    · exact ⟨_, decodeTableWord_six hw⟩

/-- The step at a line that names no evaluation is refused under fetch's own reason. -/
theorem step_refused {s : State} {l : Line} {rest : List Line} {r : Refusal} (hp : s.program = l :: rest)
    (hf : fetch s.bindings l.call = .error r) : step s = .refused r :=
  (step_of_program hp).trans (runLine_error hf)

theorem step_withFetchWord_of_none (s : State) {nbits w : Nat} (h : decodeTableWord nbits w = none) :
    step (s.withFetchWord nbits w) = .refused (.malformedOperand (.notATableWord nbits w)) := by
  have hfit : ¬((nbits = 8 ∧ w < 256) ∨ (nbits = 6 ∧ w < 64)) := by
    rw [← exists_decodeTableWord_iff, h]
    simp
  refine step_refused (s.pushLine_program (tableLine nbits w)) ?_
  exact congrArg fetched (decodeWord_of_unfit hfit)

/-- Settles O47: a fitting word is the one byte given to DECODEFULL or LOOKUP, and any other is rejected by name. -/
theorem onlyFittingWordsAreRead : Obligations.OnlyFittingWordsAreRead :=
  ⟨exists_decodeTableWord_iff, fun _ => decodeTableWord_eight, fun _ => decodeTableWord_six,
    fun s _ _ => step_withFetchWord_of_none s⟩

end Sys2Proof.Machine

/-! Lemmas for the statements about one evaluation and one step: the outcome is the arithmetic one, an evaluation does
one of three things to the state, and a step is the evaluation of the next line. -/

namespace Sys2Proof.Machine

/-! The machine's outcome is the arithmetic one (40_bitfield_decode.md R60, 41_gigahertz_lookup.md R68). -/

/-- A bit vector is the number it stands for. -/
theorem eq_ofNat_of_toNat_eq {w n : Nat} {x : BitVec w} (h : x.toNat = n) : x = BitVec.ofNat w n := by
  rw [← h, BitVec.ofNat_toNat, BitVec.setWidth_eq]

theorem recordOf_eq_arithmetic (b : Byte) :
    recordOf b = ⟨BitVec.ofNat 1 (b.toNat / 128), BitVec.ofNat 2 (b.toNat / 32 % 4),
      BitVec.ofNat 1 (b.toNat / 16 % 2), BitVec.ofNat 4 (b.toNat % 16)⟩ := by
  rw [recordOf, eq_ofNat_of_toNat_eq (genderOf_toNat b), eq_ofNat_of_toNat_eq (versionOf_toNat b),
    eq_ofNat_of_toNat_eq (activeOf_toNat b), eq_ofNat_of_toNat_eq (codeOf_toNat b)]

/-- Narrowing a pair in range to the ports' widths loses nothing, so its word is the entry at the pair itself. -/
theorem romRead_ofNat (cfg : Config) {c v : Nat} (hc : c < 16) (hv : v < 4) :
    romRead cfg (BitVec.ofNat 4 c) (BitVec.ofNat 2 v) = cfg.ghzRom[c][v] := by
  simp [romRead_eq_getElem, Nat.mod_eq_of_lt hc, Nat.mod_eq_of_lt hv]

@[simp] theorem specOutcome_gender (cfg : Config) (b : Byte) :
    specOutcome cfg (.gender b) = .value (.gender (genderOf b)) := by
  rw [eq_ofNat_of_toNat_eq (genderOf_toNat b), specOutcome]

@[simp] theorem specOutcome_version (cfg : Config) (b : Byte) :
    specOutcome cfg (.version b) = .value (.version (versionOf b)) := by
  rw [eq_ofNat_of_toNat_eq (versionOf_toNat b), specOutcome]

@[simp] theorem specOutcome_active (cfg : Config) (b : Byte) :
    specOutcome cfg (.active b) = .value (.active (activeOf b)) := by
  rw [eq_ofNat_of_toNat_eq (activeOf_toNat b), specOutcome]

@[simp] theorem specOutcome_code (cfg : Config) (b : Byte) :
    specOutcome cfg (.code b) = .value (.code (codeOf b)) := by
  rw [eq_ofNat_of_toNat_eq (codeOf_toNat b), specOutcome]

@[simp] theorem specOutcome_decode (cfg : Config) (b : Byte) :
    specOutcome cfg (.decode b) = .value (.record (recordOf b)) := by
  rw [recordOf_eq_arithmetic, specOutcome]

@[simp] theorem specOutcome_decodeFull (cfg : Config) (b : Byte) :
    specOutcome cfg (.decodeFull b) = .value (.full (fullOf cfg b)) := by
  have hword : romRead cfg (BitVec.ofNat 4 (b.toNat % 16)) (BitVec.ofNat 2 (b.toNat / 32 % 4)) = _ :=
    romRead_ofNat cfg (Nat.mod_lt _ (by decide)) (Nat.mod_lt _ (by decide))
  rw [fullOf, recordOf_eq_arithmetic, hword, specOutcome]

theorem specOutcome_lookup_of_inRange (cfg : Config) {c v : Nat} (hc : c ≤ 15) (hv : v ≤ 3) :
    specOutcome cfg (.lookup c v) =
      .value (.throughput (romRead cfg (BitVec.ofNat 4 c) (BitVec.ofNat 2 v))) := by
  have hc' : c < 16 := Nat.lt_succ_of_le hc
  have hv' : v < 4 := Nat.lt_succ_of_le hv
  rw [romRead_ofNat cfg hc' hv', specOutcome, dif_pos ⟨hc', hv'⟩]

theorem specOutcome_lookup_of_outOfRange (cfg : Config) {c v : Nat} (h : 15 < c ∨ 3 < v) :
    specOutcome cfg (.lookup c v) = .fault (.contractViolation c v) := by
  rw [specOutcome, dif_neg (by omega)]

@[simp] theorem specOutcome_lookup_toNat (cfg : Config) (c : Code) (v : StoredVersion) :
    specOutcome cfg (.lookup c.toNat v.toNat) = .value (.throughput (romRead cfg c v)) := by
  have hv : v.toNat ≤ 3 := Nat.le_of_lt_succ v.isLt
  rw [specOutcome_lookup_of_inRange cfg (code_toNat_le c) hv, ← eq_ofNat_of_toNat_eq rfl,
    ← eq_ofNat_of_toNat_eq rfl]

/-! Everything an evaluation does, over any configuration. -/

/-- A record operation drives its byte and delivers its outcome. -/
theorem execIn_rec8 (cfg : Config) (op : Rec8Op) (b : Byte) (s : State) :
    execIn cfg (op.instr b) s = .next ((s.presentByte b).deliver (specOutcome cfg (op.instr b))) := by
  cases op <;> simp only [Rec8Op.instr, specOutcome_gender, specOutcome_version, specOutcome_active,
    specOutcome_code, specOutcome_decode, specOutcome_decodeFull] <;> rfl

/-- LOOKUP of a pair in range drives the pair and delivers its outcome. -/
theorem execIn_lookup_of_inRange (cfg : Config) (s : State) {c v : Nat} (hc : c ≤ 15) (hv : v ≤ 3) :
    execIn cfg (.lookup c v) s =
      .next ((s.presentIndex (BitVec.ofNat 4 c) (BitVec.ofNat 2 v)).deliver (specOutcome cfg (.lookup c v))) := by
  rw [specOutcome_lookup_of_inRange cfg hc hv, execIn_lookup, execLookupIn_inRange cfg s hc hv]

/-- LOOKUP of a pair out of range drives nothing and delivers its outcome, the fault. -/
theorem execIn_lookup_of_outOfRange (cfg : Config) (s : State) {c v : Nat} (h : 15 < c ∨ 3 < v) :
    execIn cfg (.lookup c v) s = .next (s.deliver (specOutcome cfg (.lookup c v))) := by
  rw [specOutcome_lookup_of_outOfRange cfg h, execIn_lookup, execLookupIn_outOfRange cfg s h, State.takeFault]

/-- An evaluation delivers its arithmetic outcome and keeps the caller's program and bindings. -/
theorem execIn_specOutcome (cfg : Config) (i : Instr) (s : State) : ∃ t : State,
    execIn cfg i s = .next t ∧ t.reply = some (specOutcome cfg i) ∧
      t.program = s.program ∧ t.bindings = s.bindings := by
  obtain ⟨op, b, rfl⟩ | ⟨c, v, rfl⟩ := eq_rec8_or_lookup i
  · exact ⟨_, execIn_rec8 cfg op b s, rfl, rfl, rfl⟩
  · by_cases h : 15 < c ∨ 3 < v
    · exact ⟨_, execIn_lookup_of_outOfRange cfg s h, rfl, rfl, rfl⟩
    · exact ⟨_, execIn_lookup_of_inRange cfg s (by omega) (by omega), rfl, rfl, rfl⟩

/-! At the default table the configured machine is the machine (10_state.md R19). -/

theorem execIn_hardware (i : Instr) (s : State) : execIn hardware i s = exec i s := by
  cases i <;> rfl

theorem stepIn_hardware (s : State) : stepIn hardware s = step s := by
  have hexec : execIn hardware = exec := funext fun i => funext (execIn_hardware i)
  rw [stepIn, step, hexec]

theorem run_coreIn_hardware (k : Nat) (s : State) :
    Host.Core.run (coreIn hardware) k s = Host.Core.run core k s := by
  have hstep : stepIn hardware = step := funext stepIn_hardware
  unfold coreIn core
  rw [hstep]

/-- Settles O48: the arms agree one by one, hence the step functions, hence the runs. -/
theorem configuredMachineAtHardwareIsTheMachine : Obligations.ConfiguredMachineAtHardwareIsTheMachine :=
  ⟨execIn_hardware, stepIn_hardware, run_coreIn_hardware⟩

theorem exec_specOutcome (i : Instr) (s : State) : ∃ t : State,
    exec i s = .next t ∧ t.reply = some (specOutcome hardware i) ∧
      t.program = s.program ∧ t.bindings = s.bindings :=
  execIn_hardware i s ▸ execIn_specOutcome hardware i s

/-- Settles O39: LOOKUP and DECODEFULL over a configuration are `execIn`'s arms. -/
theorem machineRefinesTheArithmeticOutcome : Obligations.MachineRefinesTheArithmeticOutcome := by
  refine ⟨fun i s => ?_, fun cfg c v s => ?_, fun cfg b s => ?_⟩
  · obtain ⟨t, ht, hr, -⟩ := exec_specOutcome i s
    exact ⟨t, ht, hr⟩
  · obtain ⟨t, ht, hr, -⟩ := execIn_specOutcome cfg (.lookup c v) s
    exact ⟨t, ht, hr⟩
  · obtain ⟨t, ht, hr, -⟩ := execIn_specOutcome cfg (.decodeFull b) s
    exact ⟨t, ht, hr⟩

/-! A step is the evaluation of the next line (00_scope.md R12, 30_encoding.md R51). -/

section NextLine

variable {s : State} {l : Line} {rest : List Line} {i : Instr}

theorem stepIn_of_fetch (cfg : Config) (hp : s.program = l :: rest) (hf : fetch s.bindings l.call = .ok i) :
    ∃ t : State, execIn cfg i (s.advance rest) = .next t ∧ t.reply = some (specOutcome cfg i) ∧
      t.program = rest ∧ t.bindings = s.bindings ∧ stepIn cfg s = .next (t.bind l.dst (specOutcome cfg i)) := by
  obtain ⟨t, ht, hr, hprog, hbind⟩ := execIn_specOutcome cfg i (s.advance rest)
  exact ⟨t, ht, hr, hprog, hbind, (stepIn_of_program cfg hp).trans (runLine_ok hf ht hr)⟩

/-- The step at a line that names an evaluation takes the line off, delivers the outcome and binds the name. -/
theorem step_of_fetch (hp : s.program = l :: rest) (hf : fetch s.bindings l.call = .ok i) :
    ∃ t : State, step s = .next t ∧ t.reply = some (specOutcome hardware i) ∧ t.program = rest ∧
      t.bindings = (l.dst, specOutcome hardware i) :: s.bindings := by
  obtain ⟨t, -, hreply, hprog, hbind, hstep⟩ := stepIn_of_fetch hardware hp hf
  rw [stepIn_hardware] at hstep
  exact ⟨_, hstep, hreply, hprog, congrArg (_ :: ·) hbind⟩

end NextLine

/-- Settles O49: the evaluation keeps the bindings, so the step's are the old ones under the new one. -/
theorem stepOverEveryTable : Obligations.StepOverEveryTable := by
  intro cfg s l rest i hp hf
  obtain ⟨t, ht, hr, -, hbind, hstep⟩ := stepIn_of_fetch cfg hp hf
  exact ⟨t, ht, hr, hbind ▸ hstep⟩

/-- Settles O30: exec delivers an outcome, which the step binds. -/
theorem stepEvaluatesTheNextLine : Obligations.StepEvaluatesTheNextLine := by
  intro s l rest i hp hf
  obtain ⟨t, r, ht, hr⟩ := exec_delivers i (s.advance rest)
  exact ⟨t, r, ht, hr, (step_of_program hp).trans (runLine_ok hf ht hr)⟩

/-- Settles O32: the word's line is fetched as what the word decodes to, and taking it off restores the state. -/
theorem fetchedWordRunsAsDecoded : Obligations.FetchedWordRunsAsDecoded := by
  intro s nbits w i h
  have hword : decodeWord nbits w = .ok i := (decodeTableWord_eq_some_iff nbits w i).mp h
  have hfetch : fetch (s.withFetchWord nbits w).bindings (.word nbits w) = .ok i := congrArg fetched hword
  exact stepEvaluatesTheNextLine _ (tableLine nbits w) s.program i rfl hfetch

/-- Settles O31: fetch hands the bits to decode and passes its answer on. -/
theorem presentedBitsRunAsDecoded : Obligations.PresentedBitsRunAsDecoded :=
  ⟨fun _ _ _ _ h => congrArg fetched h, fun _ _ _ _ _ _ hp h => step_refused hp (congrArg fetched h)⟩

/-- Settles O29: a step presents the next line of the program, and there is none. -/
theorem stepWithNothingPresentedIsIdle : Obligations.StepWithNothingPresentedIsIdle := by
  intro s hp
  rw [step, runNext, hp]

/-- Settles O43: the three cases of what a step can do. -/
theorem stepStopsOnlyAtAnUnresolvedLine : Obligations.StepStopsOnlyAtAnUnresolvedLine := by
  intro s
  obtain ⟨-, hidle⟩ | ⟨l, rest, r, hp, hf, href⟩ | ⟨l, rest, i, t, r, -, -, -, -, hstep⟩ := step_cases s
  · exact .inl ⟨s, hidle⟩
  · exact .inr ⟨l, rest, r, hp, hf, href⟩
  · exact .inl ⟨_, hstep⟩

/-! Sound outcomes (42_decode_full.md R76, 60_exceptions.md R82). -/

theorem specOutcome_sound (cfg : Config) (i : Instr) : (specOutcome cfg i).sound cfg := by
  cases i with
  | lookup c v =>
    by_cases h : 15 < c ∨ 3 < v
    · rw [specOutcome_lookup_of_outOfRange cfg h]
      exact h
    · rw [specOutcome_lookup_of_inRange cfg (by omega) (by omega)]
      exact ⟨_, _, rfl⟩
  | decodeFull b =>
    rw [specOutcome_decodeFull]
    exact fullOf_throughput cfg b
  | _ => exact trivial

/-- A new sound outcome, delivered and bound over sound ones. -/
theorem outcomesSound_of_bound {s t : State} {n : Name} {r : Reply} (hs : s.outcomesSound) (hr : r.sound hardware)
    (hreply : t.reply = some r) (hbind : t.bindings = (n, r) :: s.bindings) : t.outcomesSound := by
  obtain ⟨-, hold⟩ := hs
  refine ⟨fun r' h => ?_, ?_⟩
  · cases hreply.symm.trans h
    exact hr
  · rw [hbind]
    exact List.forall_mem_cons.mpr ⟨hr, hold⟩

/-- Settles O37: an idle step changes nothing, and any other adds the arithmetic outcome of its line. -/
theorem stepKeepsOutcomesSound : Obligations.StepKeepsOutcomesSound := by
  intro s t hs hstep
  obtain ⟨-, hidle⟩ | ⟨_, _, _, -, -, hrefused⟩ | ⟨l, rest, i, _, _, hp, hf, -⟩ := step_cases s
  · cases hidle.symm.trans hstep
    exact hs
  · cases hrefused.symm.trans hstep
  · obtain ⟨u, hu, hreply, -, hbind⟩ := step_of_fetch hp hf
    cases hu.symm.trans hstep
    exact outcomesSound_of_bound hs (specOutcome_sound hardware i) hreply hbind

/-- Settles O38: at reset the caller holds no outcome. -/
theorem resetOutcomesSound : Obligations.ResetOutcomesSound := by
  refine ⟨fun r h => ?_, fun p h => ?_⟩
  · cases h
  · cases h

/-! The fault, and what an outcome depends on (60_exceptions.md R82 to R89, 10_state.md R21). -/

theorem specOutcome_eq_fault_iff (cfg : Config) (i : Instr) (f : Fault) :
    specOutcome cfg i = .fault f ↔
      ∃ c v, i = .lookup c v ∧ (15 < c ∨ 3 < v) ∧ f = .contractViolation c v := by
  constructor
  · intro hfault
    obtain ⟨op, b, rfl⟩ | ⟨c, v, rfl⟩ := eq_rec8_or_lookup i
    · cases op <;> cases hfault
    · by_cases h : 15 < c ∨ 3 < v
      · cases (specOutcome_lookup_of_outOfRange cfg h).symm.trans hfault
        exact ⟨c, v, rfl, h, rfl⟩
      · cases (specOutcome_lookup_of_inRange cfg (c := c) (v := v) (by omega) (by omega)).symm.trans hfault
  · rintro ⟨c, v, rfl, h, rfl⟩
    exact specOutcome_lookup_of_outOfRange cfg h

theorem cause_iff_faulted (r : Reply) :
    (r.cause = 1 ↔ r.faulted = true) ∧ (r.cause = 0 ↔ r.faulted = false) := by
  cases r with
  | value v => simp [Reply.cause, Reply.faulted]
  | fault f => cases f; simp [Reply.cause, Fault.cause, Reply.faulted]

/-- Settles O20: the outcome is the arithmetic one, a fault for a pair out of range only. -/
theorem onlyLookupOutOfRangeIsTheFault : Obligations.OnlyLookupOutOfRangeIsTheFault := by
  intro i s
  obtain ⟨t, ht, hr, -⟩ := exec_specOutcome i s
  exact ⟨t, _, ht, hr, specOutcome_eq_fault_iff hardware i, cause_iff_faulted _⟩

/-- Settles O24: either outcome is the arithmetic one, in which no state appears. -/
theorem outcomeDependsOnTheOperandAlone : Obligations.OutcomeDependsOnTheOperandAlone := by
  intro i s s'
  obtain ⟨t, ht, hr, -⟩ := exec_specOutcome i s
  obtain ⟨t', ht', hr', -⟩ := exec_specOutcome i s'
  exact ⟨t, t', ht, ht', hr.trans hr'.symm⟩

/-- Settles O21: the fault is delivered and nothing else is touched; later outcomes depend on no state. -/
theorem faultChangesNothingElse : Obligations.FaultChangesNothingElse := by
  intro c v s h
  exact ⟨_, execLookupIn_outOfRange hardware s h, rfl, by simp, rfl,
    fun j => outcomeDependsOnTheOperandAlone j _ s⟩

/-- Settles O22: the literals reach LOOKUP as written, whose fault is bound with the signals as they were. -/
theorem outOfRangeIndexIsNeverClampedOrWrapped : Obligations.OutOfRangeIndexIsNeverClampedOrWrapped := by
  intro n c v rest s h hp
  have hexec : exec (.lookup c v) (s.advance rest) = _ := execLookupIn_outOfRange hardware (s.advance rest) h
  have hstep : step s = _ := (step_of_program hp).trans (runLine_ok rfl hexec rfl)
  exact ⟨_, hstep, rfl, by simp, by simp [valueOf], rfl, rfl, rfl⟩

/-- Settles O25: each of the three things an evaluation can do to a state changes nothing when done again. -/
theorem evaluationIsIdempotent : Obligations.EvaluationIsIdempotent := by
  intro i s t ht
  rw [← execIn_hardware] at ht ⊢
  obtain ⟨op, b, rfl⟩ | ⟨c, v, rfl⟩ := eq_rec8_or_lookup i
  · cases (execIn_rec8 hardware op b s).symm.trans ht
    exact execIn_rec8 hardware op b _
  · by_cases h : 15 < c ∨ 3 < v
    · cases (execIn_lookup_of_outOfRange hardware s h).symm.trans ht
      exact execIn_lookup_of_outOfRange hardware _ h
    · have hc : c ≤ 15 := by omega
      have hv : v ≤ 3 := by omega
      cases (execIn_lookup_of_inRange hardware s hc hv).symm.trans ht
      exact execIn_lookup_of_inRange hardware _ hc hv

/-- Settles O26: each of the three things an evaluation can do drives at most the inputs of its own group. -/
theorem evaluationFrame : Obligations.EvaluationFrame := by
  intro i s t ht
  rw [← execIn_hardware] at ht
  obtain ⟨op, b, rfl⟩ | ⟨c, v, rfl⟩ := eq_rec8_or_lookup i
  · cases (execIn_rec8 hardware op b s).symm.trans ht
    refine ⟨rfl, rfl, fun _ => ⟨?_, rfl, rfl, fun _ => rfl⟩, fun hop => ?_⟩
    · simp
    · simp at hop
  · by_cases h : 15 < c ∨ 3 < v
    · cases (execIn_lookup_of_outOfRange hardware s h).symm.trans ht
      have hnotwf := (wf_lookup_eq_false_iff c v).mpr h
      refine ⟨rfl, rfl, fun hop => absurd rfl hop, fun _ => ⟨fun hwf => ?_, fun _ => ⟨rfl, rfl⟩,
        rfl, rfl, rfl, rfl, rfl, fun _ => rfl⟩⟩
      cases hnotwf.symm.trans hwf
    · have hc : c ≤ 15 := by omega
      have hv : v ≤ 3 := by omega
      have hwf := (wf_lookup_iff c v).mpr ⟨hc, hv⟩
      cases (execIn_lookup_of_inRange hardware s hc hv).symm.trans ht
      refine ⟨rfl, rfl, fun hop => absurd rfl hop, fun _ => ⟨fun _ => ?_, fun hnotwf => ?_,
        rfl, rfl, rfl, rfl, rfl, fun _ => rfl⟩⟩
      · simp [Nat.mod_eq_of_lt (Nat.lt_succ_of_le hc), Nat.mod_eq_of_lt (Nat.lt_succ_of_le hv)]
      · cases hwf.symm.trans hnotwf

/-- Settles O23: a pair of the ports' own widths is in range, and its word is what the ports then read. -/
theorem portPairsNeverFault : Obligations.PortPairsNeverFault := fun c v s =>
  ⟨_, execLookupIn_toNat hardware c v s, rfl, rfl, rfl⟩

/-- Settles O6: a pair in range is a pair of the ports' own widths, whose word is the entry at the pair. -/
theorem lookupYieldsTheTableEntry : Obligations.LookupYieldsTheTableEntry := by
  intro c v s hc hv
  have hword := romRead_ofNat hardware hc hv
  refine ⟨_, execLookupIn_inRange hardware s (Nat.le_of_lt_succ hc) (Nat.le_of_lt_succ hv), ?_, ?_, ?_, hword⟩
  · rw [State.deliver_reply, hword]
  · simpa using hc
  · simpa using hv

/-- Settles O19: the four names are decided, and a stored version is at most 3. -/
theorem storedVersionNames : Obligations.StoredVersionNames :=
  ⟨by decide, fun v => ⟨rfl, Nat.le_add_left 1 _, v.isLt⟩⟩

/-- Settles O28: the outputs at reset are the ROM reads of the pair (0, 0). -/
theorem resetHoldsNothing : Obligations.ResetHoldsNothing :=
  ⟨rfl, rfl, rfl, rfl, rfl, rfl, fun cfg => ⟨romRead_eq_getElem cfg 0 0, romRead_eq_getElem cfg 0 0⟩⟩

end Sys2Proof.Machine

/-! Lemmas for the statements about operands and programs. -/

namespace Sys2Proof.Machine

/-! How operands resolve (30_encoding.md R51). -/

/-- Settles O44: each form is split by what its name is bound to, nothing, a fault or a value of some kind. -/
theorem operandKindsAreChecked : Obligations.OperandKindsAreChecked := by
  refine ⟨fun bs op a => ?_, resolveIndex_lit, fun bs n => ?_, fun bs n f => ?_, fun bs a a' c v hc hv => ?_,
    fun bs a a' e he => ?_, fun bs a a' c e hc he => ?_⟩
  · cases a with
    | lit b => rfl
    | name n =>
      simp only [fetch, resolveByte, valueOf]
      rcases lookupName n bs with _ | (v | f)
      · rfl
      · cases v <;> rfl
      · rfl
  · simp only [resolveIndex, valueOf]
    rcases lookupName n bs with _ | (v | f)
    · rfl
    · cases v <;> rfl
    · rfl
  · simp only [resolveIndex, valueOf]
    rcases lookupName n bs with _ | (v | f')
    · rfl
    · cases v <;> cases f <;> rfl
    · rfl
  · simp only [fetch, hc, hv]
  · simp only [fetch, he]
  · simp only [fetch, hc, he]

/-! Programs of lines that need no earlier result (00_scope.md R12, 60_exceptions.md R94). -/

/-- A step that goes on is the first step of a run. -/
theorem run_succ_of_step {s t : State} (k : Nat) (h : step s = .next t) :
    Host.Core.run core (k + 1) s = Host.Core.run core k t := by
  have hcore : core.step s = .next t := h
  simp only [Host.Core.run, hcore]

/-- A closed operand resolves to its evaluation whatever is bound. -/
theorem fetch_of_closedInstr (bs : List (Name × Reply)) {c : Call} {i : Instr} (h : c.closedInstr = some i) :
    fetch bs c = .ok i := by
  cases c with
  | rec8 op a =>
    cases a with
    | lit b =>
      cases h
      rfl
    | name n => cases h
  | lookup a a' =>
    cases a with
    | lit c =>
      cases a' with
      | lit v =>
        cases h
        rfl
      | _ => cases h
    | _ => cases h
  | encoded op bytes =>
    cases hd : decode op bytes with
    | ok j =>
      rw [Call.closedInstr, hd] at h
      cases h
      exact congrArg fetched hd
    | error e =>
      rw [Call.closedInstr, hd] at h
      cases h
  | word nbits w => exact congrArg fetched ((decodeTableWord_eq_some_iff nbits w i).mp h)

/-- What a line that needs no earlier result binds: its name to the arithmetic outcome of its evaluation. -/
def closedBinding (l : Line) : Option (Name × Reply) :=
  l.call.closedInstr.map fun i => (l.dst, specOutcome hardware i)

/-- A program of such lines runs in one step a line and leaves their bindings, the newest first. -/
theorem run_closed_program (p : List Line) (s : State) (hclosed : ∀ l ∈ p, l.call.closedInstr.isSome = true) :
    ∃ t : State, Host.Core.run core p.length { s with program := p } = .next t ∧ t.program = [] ∧
      t.bindings = (p.filterMap closedBinding).reverse ++ s.bindings := by
  induction p generalizing s with
  | nil => exact ⟨_, rfl, rfl, rfl⟩
  | cons l p ih =>
    obtain ⟨hl, hp⟩ := List.forall_mem_cons.mp hclosed
    obtain ⟨i, hi⟩ := Option.isSome_iff_exists.mp hl
    obtain ⟨u, hstep, -, rfl, hbind⟩ :=
      step_of_fetch (s := { s with program := l :: p }) rfl (fetch_of_closedInstr _ hi)
    obtain ⟨t, hrun, hprog, hbindings⟩ := ih u hp
    refine ⟨t, (run_succ_of_step _ hstep).trans hrun, hprog, ?_⟩
    simp [hbindings, hbind, closedBinding, hi]

theorem closedInstr_isSome_of_map_eq {p : List Line} {is : List Instr}
    (h : p.map (fun l => l.call.closedInstr) = is.map some) : ∀ l ∈ p, l.call.closedInstr.isSome = true := by
  intro l hl
  have hmem : l.call.closedInstr ∈ is.map some := h ▸ List.mem_map_of_mem hl
  obtain ⟨i, -, hi⟩ := List.mem_map.mp hmem
  exact hi ▸ rfl

theorem filterMap_closedBinding_eq_zip {p : List Line} {is : List Instr}
    (h : p.map (fun l => l.call.closedInstr) = is.map some) :
    p.filterMap closedBinding = (p.map Line.dst).zip (is.map (specOutcome hardware)) := by
  induction p generalizing is with
  | nil => rfl
  | cons l p ih =>
    cases is with
    | nil => cases h
    | cons i is =>
      obtain ⟨hl, hp⟩ := List.cons_eq_cons.mp h
      simp [closedBinding, hl, ← ih hp]

/-- Settles O40: the bindings a run leaves are those of its lines, each with its own evaluation. -/
theorem programRunIsTheSequenceOfOutcomes : Obligations.ProgramRunIsTheSequenceOfOutcomes := by
  intro p is s h
  rw [← filterMap_closedBinding_eq_zip h]
  exact run_closed_program p s (closedInstr_isSome_of_map_eq h)

/-- The order of bindings of different names does not matter to a look-up. -/
theorem lookupName_append_perm {bs bs' : List (Name × Reply)} (h : bs.Perm bs') (n : Name)
    (old : List (Name × Reply)) (hnodup : (bs.map Prod.fst).Nodup) :
    lookupName n (bs ++ old) = lookupName n (bs' ++ old) := by
  induction h with
  | nil => rfl
  | cons x _ ih =>
    simp only [List.cons_append, lookupName, ih (List.nodup_cons.mp hnodup).2]
  | swap x y bs =>
    have hne : y.1 ≠ x.1 := by
      intro heq
      simp [heq] at hnodup
    by_cases hx : x.1 = n
    · have hy : y.1 ≠ n := fun hy => hne (hy.trans hx.symm)
      simp [lookupName, hx, hy]
    · simp [lookupName, hx]
  | trans h _ ih ih' => exact (ih hnodup).trans (ih' ((h.map _).nodup_iff.mp hnodup))

/-- The lines that need no earlier result bind their own names, in order. -/
theorem map_fst_filterMap_closedBinding {p : List Line} (hclosed : ∀ l ∈ p, l.call.closedInstr.isSome = true) :
    (p.filterMap closedBinding).map Prod.fst = p.map Line.dst := by
  rw [List.map_filterMap, ← List.filterMap_eq_map]
  refine List.filterMap_congr fun l hl => ?_
  obtain ⟨i, hi⟩ := Option.isSome_iff_exists.mp (hclosed l hl)
  simp [closedBinding, hi]

/-- Settles O41: the two runs leave permuted bindings of different names. -/
theorem evaluationOrderDoesNotMatter : Obligations.EvaluationOrderDoesNotMatter := by
  intro p q s hperm hnodup hclosed
  obtain ⟨t, ht, -, htb⟩ := run_closed_program p s hclosed
  obtain ⟨u, hu, -, hub⟩ := run_closed_program q s fun l hl => hclosed l (hperm.mem_iff.mpr hl)
  refine ⟨t, u, ht, hu, fun n => ?_⟩
  have hbindings : (p.filterMap closedBinding).reverse.Perm (q.filterMap closedBinding).reverse :=
    (List.reverse_perm _).trans ((hperm.filterMap _).trans (List.reverse_perm _).symm)
  have hnames : ((p.filterMap closedBinding).reverse.map Prod.fst).Nodup := by
    rwa [List.map_reverse, List.nodup_reverse, map_fst_filterMap_closedBinding hclosed]
  rw [htb, hub, lookupName_append_perm hbindings n s.bindings hnames]

/-- The fields of a record bound to a name are the pair that the line looks up. -/
theorem fetch_lookup_record_fields (r : Name) (d : DecodedRecord) (bs : List (Name × Reply)) :
    fetch ((r, .value (.record d)) :: bs) (.lookup (.field r .code) (.field r .version)) =
      .ok (.lookup d.code.toNat d.version.toNat) := by
  simp [fetch, resolveIndex, valueOf, Value.field]

/-- Settles O42: the second line finds the record the first one bound, whose word is DECODEFULL's throughput. -/
theorem decodeThenLookupProgram : Obligations.DecodeThenLookupProgram := by
  intro s b r t rest hne hp
  obtain ⟨u, hstep, -, hprog, hbind⟩ := step_of_fetch (i := .decode b) hp rfl
  rw [specOutcome_decode] at hbind
  have hfetch := fetch_lookup_record_fields r (recordOf b) s.bindings
  rw [← hbind] at hfetch
  obtain ⟨w, hstep', -, hprog', hbind'⟩ := step_of_fetch hprog hfetch
  rw [specOutcome_lookup_toNat, hbind] at hbind'
  refine ⟨w, (run_succ_of_step 1 hstep).trans (run_succ_of_step 0 hstep'), hprog', ?_, ?_⟩
  · rw [hbind', lookupName_other _ _ hne.symm, lookupName_same]
  · rw [hbind', lookupName_same, fullOf_throughput]

end Sys2Proof.Machine

/-! Lemmas for the statements about the text of a line. -/

namespace Sys2Proof.Machine

/-! The names in a line read from a text (30_encoding.md R51): each reader of the grammar checks its own. -/

theorem byteArg_wf {w : List Char} {a : ByteArg} (h : byteArg w = some a) : a.wf = true := by
  unfold byteArg at h
  split at h
  · cases h
    rfl
  · obtain ⟨hw, ha⟩ := Option.ite_none_right_eq_some.mp h
    cases ha
    exact hw

theorem indexWord_wf {w : List Char} {a : IndexArg} (h : indexWord w = some a) : a.wf = true := by
  unfold indexWord at h
  split at h
  · cases h
    rfl
  · obtain ⟨hw, ha⟩ := Option.ite_none_right_eq_some.mp h
    cases ha
    exact hw

theorem indexField_wf {w f : List Char} {a : IndexArg} (h : indexField w f = some a) : a.wf = true := by
  unfold indexField at h
  split at h
  · obtain ⟨hw, ha⟩ := Option.ite_none_right_eq_some.mp h
    cases ha
    exact hw
  · cases h

theorem indexArg_wf {ts ts' : List Token} {a : IndexArg} (h : indexArg ts = some (a, ts')) : a.wf = true := by
  unfold indexArg at h
  split at h
  · obtain ⟨a', ha, heq⟩ := Option.map_eq_some_iff.mp h
    cases heq
    exact indexField_wf ha
  · obtain ⟨a', ha, heq⟩ := Option.map_eq_some_iff.mp h
    cases heq
    exact indexWord_wf ha
  · cases h

theorem lookupCall_wf {ts : List Token} {c : Call} (h : lookupCall ts = some c) : c.wf = true := by
  unfold lookupCall at h
  split at h
  next hcode =>
    split at h
    next hversion =>
      cases h
      simp [Call.wf, indexArg_wf hcode, indexArg_wf hversion]
    next => cases h
  next => cases h

theorem callOf_wf {m : List Char} {ts : List Token} {c : Call} (h : callOf m ts = some c) : c.wf = true := by
  unfold callOf at h
  split at h
  · exact lookupCall_wf h
  · split at h
    · obtain ⟨a, ha, rfl⟩ := Option.map_eq_some_iff.mp h
      exact byteArg_wf ha
    · cases h

/-- Settles O46: the reader checks the name on the left, and callOf those in the operand. -/
theorem readLinesAreWellFormed : Obligations.ReadLinesAreWellFormed := by
  intro text l h
  unfold lineOf at h
  split at h
  · obtain ⟨hn, hcall⟩ := Option.ite_none_right_eq_some.mp h
    obtain ⟨c, hc, rfl⟩ := Option.map_eq_some_iff.mp hcall
    simp [Line.wf, hn, callOf_wf hc]
  · cases h

/-- Settles O45: two literal texts. -/
theorem exampleLinesAreRead : Obligations.ExampleLinesAreRead := by
  unfold Obligations.ExampleLinesAreRead
  decide

end Sys2Proof.Machine
